-- ==== Sys2Proof/Word.lean ====
section
/-! DEFINITION. The two word types of the engine: the byte (a memory cell, a register, an operand
byte) and the 16-bit word (an address, the program counter). Spec: 00_scope.md R3 and R4. -/

namespace Sys2Proof

/-- A byte, an unsigned value 0 to 255 (R4). -/
abbrev Byte := BitVec 8

/-- A word, an unsigned value 0 to 65535: every address and the program counter (R4, R30). -/
abbrev Word := BitVec 16

end Sys2Proof
end

