-- ==== Sys2Proof/Machine/Bytes.lean ====
section
/-! DEFINITION. Moving between bytes and words: zero extension, concatenation and its two halves.
Spec: 00_scope.md R4 (`hi :: lo`, slices), R5 (`zext`). -/

namespace Sys2Proof.Machine

/-- `zext_16(b)` (R5): a byte widened with zeros. -/
def zext (b : Byte) : Word := b.setWidth 16

/-- `hi :: lo`, the word `hi * 256 + lo` (R4). -/
def joinBytes (hi lo : Byte) : Word := hi ++ lo

/-- `w[7:0]` (R4). -/
def lowByte (w : Word) : Byte := w.setWidth 8

/-- `w[15:8]` (R4), also the page number of an address (R31). -/
def highByte (w : Word) : Byte := w.extractLsb' 8 8

end Sys2Proof.Machine
end

