-- ==== Sys2Proof/Config.lean ====
section
/-! DEFINITION. What the spec leaves to the implementation. One parameter is free:
JMP_IND_PAGE_CROSS (00_scope.md R3, 40_step_and_addressing.md R87, 92_eei_decisions.md D8). The
parameters the spec itself decides are constants of Machine/Params.lean and Decode.lean. -/

namespace Sys2Proof

/-- Where `JMP ind` reads the high byte of its pointer from when the low byte lies at the end of a
page (R87). These are the two settings that are a behaviour of some hardware. The spec's third
setting, `refuse`, "is not a behaviour of any hardware" and is left out (log entry 5). -/
inductive PageCross where
  /-- From the next address, on the next page. -/
  | carry
  /-- From the first byte of the same page. -/
  | samePage
  deriving DecidableEq, Repr, Inhabited

/-- JMP_IND_PAGE_CROSS, OPEN in the spec: no proof can see which setting it is, so a claim holds
for both. DESIGN CHOICE (log entry 5): the spec's default `carry` is not fixed. -/
opaque Config.jmpIndPageCross : PageCross

end Sys2Proof
end

