-- ==== Sys2Proof/Machine/Params.lean ====
section
/-! DEFINITION. The parameters of the engine (00_scope.md R3) that the spec fixes, decides or lets
the model choose. JMP_IND_PAGE_CROSS stays free: it is `Config.jmpIndPageCross`. -/

namespace Sys2Proof.Machine

/-- RESET_VECTOR (R211). UNVERIFIED (log entry 3): the spec's decision D3, which the spec marks as not
in its source. -/
def resetVector : Word := 0xFFFC

/-- RESET_SP (R21, after conflict C2). -/
def resetSp : Byte := 0xFF

/-- STACK_PAGE (R3, R13): the stack is page 1. -/
def stackPage : Byte := 1

/-- RESET_A in `State.reset`. DESIGN CHOICE (log entry 2): OPEN in the spec (R21, D4). -/
def resetA : Byte := 0

/-- RESET_X in `State.reset`. DESIGN CHOICE (log entry 2): OPEN in the spec (R21, D4). -/
def resetX : Byte := 0

/-- RESET_Y in `State.reset`. DESIGN CHOICE (log entry 2): OPEN in the spec (R21, D4). -/
def resetY : Byte := 0

/-- What an address that memory does not list reads as. DESIGN CHOICE (log entry 1): MEM_INIT is
OPEN in the spec (R39, D12). -/
def unlistedByte : Byte := 0

/-- JMP_IND_PAGE_CROSS (R87), the free parameter of Config.lean. -/
def pageCross : PageCross := Config.jmpIndPageCross

end Sys2Proof.Machine
end

