-- ==== Sys2Proof/Machine/Memory.lean ====
section
/-! DEFINITION. Memory M: 65536 byte cells (10_state.md R23, 20_memory.md R30), held as a list of
(address, byte) pairs in one canonical form, with its read and its write. -/

namespace Sys2Proof.Machine

/-- The cells that do not read as `unlistedByte`. In canonical form (`Memory.wf`) the addresses rise
strictly, so that equal memories are equal lists. -/
structure Memory where
  cells : List Host.Cell
  deriving DecidableEq, Repr

/-- The number of addresses, 0 to 65535 (R30). -/
def addressCount : Nat := 65536

/-- The first cell listed for an address, or the unlisted byte. -/
def readCells (a : Nat) : List Host.Cell → Byte
  | [] => unlistedByte
  | (k, b) :: t => if k = a then b else readCells a t

/-- A list of cells without any cell of one address. -/
def dropCell (a : Nat) : List Host.Cell → List Host.Cell
  | [] => []
  | (k, b) :: t => if k = a then dropCell a t else (k, b) :: dropCell a t

/-- A cell put before the first cell of a higher address. -/
def insertCell (a : Nat) (b : Byte) : List Host.Cell → List Host.Cell
  | [] => [(a, b)]
  | (k, c) :: t => if a < k then (a, b) :: (k, c) :: t else (k, c) :: insertCell a b t

/-- Cells at strictly rising addresses from `lo` on, inside the address space, none of them equal to
what an unlisted address reads as. -/
def cellsFrom (lo : Nat) : List Host.Cell → Bool
  | [] => true
  | (k, b) :: t => decide (lo ≤ k) && decide (k < addressCount) && b != unlistedByte && cellsFrom (k + 1) t

/-- The canonical form of memory. -/
def Memory.wf (m : Memory) : Bool := cellsFrom 0 m.cells

/-- Memory with nothing listed. -/
def Memory.empty : Memory := ⟨[]⟩

/-- `M[a]` (R32). -/
def Memory.read (m : Memory) (a : Nat) : Byte := readCells a m.cells

/-- `M[a] <- b` (R32): the cell of `a` is replaced, and left out when `b` is the unlisted byte. -/
def Memory.write (m : Memory) (a : Nat) (b : Byte) : Memory :=
  let rest := dropCell a m.cells
  ⟨if b = unlistedByte then rest else insertCell a b rest⟩

/-- Bytes written at ascending addresses from `a`; those above the top of memory are dropped. How an
image or an instruction is put into memory from outside. -/
def Memory.writeList (m : Memory) (a : Nat) : List Byte → Memory
  | [] => m
  | b :: t => if a < addressCount then (m.write a b).writeList (a + 1) t else m

end Sys2Proof.Machine
end

