-- ==== Sys2Proof/Machine/State.lean ====
section
/-! DEFINITION. The state of the engine (10_state.md R10), the reasons a step can stop, and the
state after reset (R21). -/

namespace Sys2Proof.Machine

/-- The two exceptions of the engine (60_exceptions.md R180). -/
inductive Exc where
  /-- The opcode byte at PC has no row in OPTABLE (R181). -/
  | invalidOpcode
  /-- The step would need an address above 0xFFFF (R182). -/
  | addressOutOfRange
  deriving DecidableEq, Repr

/-- The engine status ST (10_state.md R18). -/
inductive Status where
  | running
  | halted (kind : Exc)
  deriving DecidableEq, Repr

/-- The flag set, seven Booleans with no packed form (10_state.md R15, R17). -/
structure Flags where
  n : Bool
  v : Bool
  b : Bool
  d : Bool
  i : Bool
  z : Bool
  c : Bool
  deriving DecidableEq, Repr

/-- All seven flags false: "the others exist for extensibility and must default to false" (R15,
R21). -/
def Flags.clear : Flags := ⟨false, false, false, false, false, false, false⟩

/-- The architectural state: "exactly the following; nothing else persists from one step to the
next" (R10). -/
structure State where
  /-- Accumulator (R11). -/
  a : Byte
  /-- Index register (R11). -/
  x : Byte
  /-- Index register (R11). -/
  y : Byte
  /-- Stack pointer, an offset into page 1 (R13). -/
  sp : Byte
  /-- Program counter: between steps the address of the next opcode byte (R14). -/
  pc : Word
  /-- The seven flags (R15). -/
  flags : Flags
  /-- The engine status ST (R18). -/
  st : Status
  /-- The memory M (R23). -/
  mem : Memory
  deriving DecidableEq, Repr

/-- The general registers, by name (R11). -/
inductive Reg where
  | a | x | y
  deriving DecidableEq, Repr

/-- Why the machine stops. -/
inductive Fault where
  /-- Raised by `step` alone, in a state whose ST is `halted`: "the engine performs no step and no
  memory access; the state is frozen" (R18, R184). Safe: the spec gives no next state there, and
  the host reads the kind. Taking an exception is itself a next state (`raise`). -/
  | halted (kind : Exc)
  deriving DecidableEq, Repr

/-- Why the model gives no meaning. -/
inductive Refusal where
  /-- An arm of `exec` that has no meaning yet. No arm answers it. Safe. -/
  | notModelled (mnemonic : String)
  /-- What `stepWith` answers over rows that `OpTable.construct` refuses (30_encoding.md R56; 93 U5,
  `refuse`): a length that is no instruction's, or a mode the mnemonic has no meaning for. The table
  is refused when an engine is built, so no step of a built engine answers it, nor any of `step`.
  Safe. -/
  | malformedTable
  deriving DecidableEq, Repr

/-- What a step of this machine answers. -/
abbrev Result := Host.Outcome State Fault Refusal

/-- The state right after the first reset (R21, R210) of an engine with nothing in its memory. The
values of A, X, Y and of the unlisted memory bytes are the model's (log entries 1 and 2). -/
def State.reset : State :=
  { a := resetA, x := resetX, y := resetY, sp := resetSp
    pc := joinBytes (Memory.empty.read (resetVector.toNat + 1)) (Memory.empty.read resetVector.toNat)
    flags := Flags.clear, st := .running, mem := Memory.empty }

end Sys2Proof.Machine
end

