-- ==== Sys2Proof/Machine/Flags.lean ====
section
/-! DEFINITION. The one flag computation of the engine: CMP's (44_compare.md R150, R151). -/

namespace Sys2Proof.Machine

/-- The flags after `CMP` of A against a value: C = (A >= value) and Z = (A == value), unsigned, and
N = (A >= 0x80), bit 7 of A itself. V, B, D and I are not written (R150). -/
def compareFlags (a value : Byte) (f : Flags) : Flags :=
  { f with
    c := decide (value ≤ a)
    z := decide (a = value)
    n := decide (0x80#8 ≤ a) }

end Sys2Proof.Machine
end

