-- ==== Sys2Proof/Syntax.lean ====
section
/-! DEFINITION. The syntax: the mnemonics, the addressing modes, the instructions (one constructor
per row of the opcode table) and the shape of an opcode-table row. Spec: 30_encoding.md R50 to R54,
R60. -/

namespace Sys2Proof

/-- The closed enumeration of the 21 mnemonics (R60), in the spec's order. -/
inductive Mnemonic where
  | nop | tax | txa | tay | tya | inx | dex
  | iny | dey | pha | pla | jmp | jsr | rts
  | cmp | lda | ldx | ldy | sta | stx | sty
  deriving DecidableEq, Repr

/-- The nine addressing modes that have an effective address (R79 to R87). -/
inductive MemMode where
  | zpg | zpgx | zpgy | abs | absx | absy | indx | indy | ind
  deriving DecidableEq, Repr

/-- The closed enumeration of the ten addressing modes (R60): immediate, which has no effective
address (R78), and the nine that have one. "No addressing mode" (R90) is `none : Option Mode`. -/
inductive Mode where
  | imm
  | mem (m : MemMode)
  deriving DecidableEq, Repr

/-- One row of OPTABLE (R54): opcode byte, mnemonic, addressing mode, total length in bytes. -/
structure OpRow where
  opcode : Byte
  mnemonic : Mnemonic
  mode : Option Mode
  length : Nat
  deriving DecidableEq, Repr

/-- An opcode table (R54), a list of rows. -/
abbrev OpTable := List OpRow

/-- The instructions: one constructor per row of the opcode table (R54). A two-byte row (format F2)
carries its operand byte, a three-byte row (format F3) its operand word, little-endian in memory
(R51, R52). -/
inductive Instr where
  | nop
  | tax
  | txa
  | tay
  | tya
  | inx
  | dex
  | iny
  | dey
  | pha
  | pla
  | jmpAbs (v : Word)
  | jmpInd (v : Word)
  | jsrAbs (v : Word)
  | rts
  | cmpImm (b : Byte)
  | cmpZpg (b : Byte)
  | cmpZpgx (b : Byte)
  | cmpAbs (v : Word)
  | cmpAbsx (v : Word)
  | cmpAbsy (v : Word)
  | cmpIndx (b : Byte)
  | cmpIndy (b : Byte)
  | ldaImm (b : Byte)
  | ldaZpg (b : Byte)
  | ldaZpgx (b : Byte)
  | ldaAbs (v : Word)
  | ldaAbsx (v : Word)
  | ldaAbsy (v : Word)
  | ldaIndx (b : Byte)
  | ldaIndy (b : Byte)
  | ldxImm (b : Byte)
  | ldxZpg (b : Byte)
  | ldxZpgy (b : Byte)
  | ldxAbs (v : Word)
  | ldxAbsy (v : Word)
  | ldyImm (b : Byte)
  | ldyZpg (b : Byte)
  | ldyZpgx (b : Byte)
  | ldyAbs (v : Word)
  | ldyAbsx (v : Word)
  | staZpg (b : Byte)
  | staZpgx (b : Byte)
  | staAbs (v : Word)
  | staAbsx (v : Word)
  | staAbsy (v : Word)
  | staIndx (b : Byte)
  | staIndy (b : Byte)
  | stxZpg (b : Byte)
  | stxZpgy (b : Byte)
  | stxAbs (v : Word)
  | styZpg (b : Byte)
  | styZpgx (b : Byte)
  | styAbs (v : Word)
  deriving DecidableEq, Repr

/-- The mnemonic of an instruction's row (R54). -/
def Instr.mnemonic : Instr → Mnemonic
  | .nop => .nop
  | .tax => .tax
  | .txa => .txa
  | .tay => .tay
  | .tya => .tya
  | .inx => .inx
  | .dex => .dex
  | .iny => .iny
  | .dey => .dey
  | .pha => .pha
  | .pla => .pla
  | .jmpAbs _ => .jmp
  | .jmpInd _ => .jmp
  | .jsrAbs _ => .jsr
  | .rts => .rts
  | .cmpImm _ => .cmp
  | .cmpZpg _ => .cmp
  | .cmpZpgx _ => .cmp
  | .cmpAbs _ => .cmp
  | .cmpAbsx _ => .cmp
  | .cmpAbsy _ => .cmp
  | .cmpIndx _ => .cmp
  | .cmpIndy _ => .cmp
  | .ldaImm _ => .lda
  | .ldaZpg _ => .lda
  | .ldaZpgx _ => .lda
  | .ldaAbs _ => .lda
  | .ldaAbsx _ => .lda
  | .ldaAbsy _ => .lda
  | .ldaIndx _ => .lda
  | .ldaIndy _ => .lda
  | .ldxImm _ => .ldx
  | .ldxZpg _ => .ldx
  | .ldxZpgy _ => .ldx
  | .ldxAbs _ => .ldx
  | .ldxAbsy _ => .ldx
  | .ldyImm _ => .ldy
  | .ldyZpg _ => .ldy
  | .ldyZpgx _ => .ldy
  | .ldyAbs _ => .ldy
  | .ldyAbsx _ => .ldy
  | .staZpg _ => .sta
  | .staZpgx _ => .sta
  | .staAbs _ => .sta
  | .staAbsx _ => .sta
  | .staAbsy _ => .sta
  | .staIndx _ => .sta
  | .staIndy _ => .sta
  | .stxZpg _ => .stx
  | .stxZpgy _ => .stx
  | .stxAbs _ => .stx
  | .styZpg _ => .sty
  | .styZpgx _ => .sty
  | .styAbs _ => .sty

/-- The addressing mode of an instruction's row (R54), `none` for the one-byte instructions (R90). -/
def Instr.mode : Instr → Option Mode
  | .nop => none
  | .tax => none
  | .txa => none
  | .tay => none
  | .tya => none
  | .inx => none
  | .dex => none
  | .iny => none
  | .dey => none
  | .pha => none
  | .pla => none
  | .jmpAbs _ => some (.mem .abs)
  | .jmpInd _ => some (.mem .ind)
  | .jsrAbs _ => some (.mem .abs)
  | .rts => none
  | .cmpImm _ => some .imm
  | .cmpZpg _ => some (.mem .zpg)
  | .cmpZpgx _ => some (.mem .zpgx)
  | .cmpAbs _ => some (.mem .abs)
  | .cmpAbsx _ => some (.mem .absx)
  | .cmpAbsy _ => some (.mem .absy)
  | .cmpIndx _ => some (.mem .indx)
  | .cmpIndy _ => some (.mem .indy)
  | .ldaImm _ => some .imm
  | .ldaZpg _ => some (.mem .zpg)
  | .ldaZpgx _ => some (.mem .zpgx)
  | .ldaAbs _ => some (.mem .abs)
  | .ldaAbsx _ => some (.mem .absx)
  | .ldaAbsy _ => some (.mem .absy)
  | .ldaIndx _ => some (.mem .indx)
  | .ldaIndy _ => some (.mem .indy)
  | .ldxImm _ => some .imm
  | .ldxZpg _ => some (.mem .zpg)
  | .ldxZpgy _ => some (.mem .zpgy)
  | .ldxAbs _ => some (.mem .abs)
  | .ldxAbsy _ => some (.mem .absy)
  | .ldyImm _ => some .imm
  | .ldyZpg _ => some (.mem .zpg)
  | .ldyZpgx _ => some (.mem .zpgx)
  | .ldyAbs _ => some (.mem .abs)
  | .ldyAbsx _ => some (.mem .absx)
  | .staZpg _ => some (.mem .zpg)
  | .staZpgx _ => some (.mem .zpgx)
  | .staAbs _ => some (.mem .abs)
  | .staAbsx _ => some (.mem .absx)
  | .staAbsy _ => some (.mem .absy)
  | .staIndx _ => some (.mem .indx)
  | .staIndy _ => some (.mem .indy)
  | .stxZpg _ => some (.mem .zpg)
  | .stxZpgy _ => some (.mem .zpgy)
  | .stxAbs _ => some (.mem .abs)
  | .styZpg _ => some (.mem .zpg)
  | .styZpgx _ => some (.mem .zpgx)
  | .styAbs _ => some (.mem .abs)

/-- The operand value `v` of an instruction (R52): a single operand byte widened with zeros, an
operand word as it stands, and 0, unused, for a one-byte instruction. -/
def Instr.operand : Instr → Word
  | .nop => 0
  | .tax => 0
  | .txa => 0
  | .tay => 0
  | .tya => 0
  | .inx => 0
  | .dex => 0
  | .iny => 0
  | .dey => 0
  | .pha => 0
  | .pla => 0
  | .jmpAbs v => v
  | .jmpInd v => v
  | .jsrAbs v => v
  | .rts => 0
  | .cmpImm b => Machine.zext b
  | .cmpZpg b => Machine.zext b
  | .cmpZpgx b => Machine.zext b
  | .cmpAbs v => v
  | .cmpAbsx v => v
  | .cmpAbsy v => v
  | .cmpIndx b => Machine.zext b
  | .cmpIndy b => Machine.zext b
  | .ldaImm b => Machine.zext b
  | .ldaZpg b => Machine.zext b
  | .ldaZpgx b => Machine.zext b
  | .ldaAbs v => v
  | .ldaAbsx v => v
  | .ldaAbsy v => v
  | .ldaIndx b => Machine.zext b
  | .ldaIndy b => Machine.zext b
  | .ldxImm b => Machine.zext b
  | .ldxZpg b => Machine.zext b
  | .ldxZpgy b => Machine.zext b
  | .ldxAbs v => v
  | .ldxAbsy v => v
  | .ldyImm b => Machine.zext b
  | .ldyZpg b => Machine.zext b
  | .ldyZpgx b => Machine.zext b
  | .ldyAbs v => v
  | .ldyAbsx v => v
  | .staZpg b => Machine.zext b
  | .staZpgx b => Machine.zext b
  | .staAbs v => v
  | .staAbsx v => v
  | .staAbsy v => v
  | .staIndx b => Machine.zext b
  | .staIndy b => Machine.zext b
  | .stxZpg b => Machine.zext b
  | .stxZpgy b => Machine.zext b
  | .stxAbs v => v
  | .styZpg b => Machine.zext b
  | .styZpgx b => Machine.zext b
  | .styAbs v => v

/-- What the decoder of any opcode table answers (30_encoding.md R57, R60): mnemonic, mode and operand
value. It also names the pairs that R56 admits and R54 gives no opcode, which are no `Instr`. -/
structure Decoded where
  mnemonic : Mnemonic
  mode : Option Mode
  operand : Word
  deriving DecidableEq, Repr

/-- An instruction of R54 as its mnemonic, mode and operand value. -/
def Instr.decoded (i : Instr) : Decoded := ⟨i.mnemonic, i.mode, i.operand⟩

end Sys2Proof
end

