-- ==== Sys2Proof/Decode.lean ====
section
/-! DEFINITION. The opcode table, the decoder and the encoder. The decoder is a total function on
lists of bytes, takes the table as an argument, and looks the whole opcode byte up in it; the encoder
reads the same table. Spec: 30_encoding.md R50 to R59. -/

namespace Sys2Proof

open Machine

/-- The total length of an instruction as a function of its mode (R53). -/
def modeLength : Option Mode → Nat
  | none => 1
  | some .imm => 2
  | some (.mem .zpg) => 2
  | some (.mem .zpgx) => 2
  | some (.mem .zpgy) => 2
  | some (.mem .indx) => 2
  | some (.mem .indy) => 2
  | some (.mem .abs) => 3
  | some (.mem .absx) => 3
  | some (.mem .absy) => 3
  | some (.mem .ind) => 3

/-- The total length of an instruction (R53, R54). -/
def instrLength (i : Instr) : Nat := modeLength i.mode

/-- The (mnemonic, mode) pairs the spec gives a meaning (R56, the table of admissible modes). -/
def admissible : Mnemonic → Option Mode → Bool
  | .jmp, m => m == some (.mem .abs) || m == some (.mem .ind)
  | .jsr, m => m == some (.mem .abs)
  | .cmp, m | .lda, m | .ldx, m | .ldy, m => m != none && m != some (.mem .ind)
  | .sta, m | .stx, m | .sty, m => m != none && m != some .imm && m != some (.mem .ind)
  | _, m => m == none

/-- OPTABLE, opcodes 0x20 to 0x6C (R54). -/
def optableControl : OpTable :=
  [⟨0x20, .jsr, some (.mem .abs), 3⟩,
   ⟨0x48, .pha, none, 1⟩,
   ⟨0x4C, .jmp, some (.mem .abs), 3⟩,
   ⟨0x60, .rts, none, 1⟩,
   ⟨0x68, .pla, none, 1⟩,
   ⟨0x6C, .jmp, some (.mem .ind), 3⟩]

/-- OPTABLE, opcodes 0x8x (R54). -/
def optable8x : OpTable :=
  [⟨0x81, .sta, some (.mem .indx), 2⟩,
   ⟨0x84, .sty, some (.mem .zpg), 2⟩,
   ⟨0x85, .sta, some (.mem .zpg), 2⟩,
   ⟨0x86, .stx, some (.mem .zpg), 2⟩,
   ⟨0x88, .dey, none, 1⟩,
   ⟨0x8A, .txa, none, 1⟩,
   ⟨0x8C, .sty, some (.mem .abs), 3⟩,
   ⟨0x8D, .sta, some (.mem .abs), 3⟩,
   ⟨0x8E, .stx, some (.mem .abs), 3⟩]

/-- OPTABLE, opcodes 0x9x (R54). -/
def optable9x : OpTable :=
  [⟨0x91, .sta, some (.mem .indy), 2⟩,
   ⟨0x94, .sty, some (.mem .zpgx), 2⟩,
   ⟨0x95, .sta, some (.mem .zpgx), 2⟩,
   ⟨0x96, .stx, some (.mem .zpgy), 2⟩,
   ⟨0x98, .tya, none, 1⟩,
   ⟨0x99, .sta, some (.mem .absy), 3⟩,
   ⟨0x9D, .sta, some (.mem .absx), 3⟩]

/-- OPTABLE, opcodes 0xAx (R54). -/
def optableAx : OpTable :=
  [⟨0xA0, .ldy, some .imm, 2⟩,
   ⟨0xA1, .lda, some (.mem .indx), 2⟩,
   ⟨0xA2, .ldx, some .imm, 2⟩,
   ⟨0xA4, .ldy, some (.mem .zpg), 2⟩,
   ⟨0xA5, .lda, some (.mem .zpg), 2⟩,
   ⟨0xA6, .ldx, some (.mem .zpg), 2⟩,
   ⟨0xA8, .tay, none, 1⟩,
   ⟨0xA9, .lda, some .imm, 2⟩,
   ⟨0xAA, .tax, none, 1⟩,
   ⟨0xAC, .ldy, some (.mem .abs), 3⟩,
   ⟨0xAD, .lda, some (.mem .abs), 3⟩,
   ⟨0xAE, .ldx, some (.mem .abs), 3⟩]

/-- OPTABLE, opcodes 0xBx (R54). -/
def optableBx : OpTable :=
  [⟨0xB1, .lda, some (.mem .indy), 2⟩,
   ⟨0xB4, .ldy, some (.mem .zpgx), 2⟩,
   ⟨0xB5, .lda, some (.mem .zpgx), 2⟩,
   ⟨0xB6, .ldx, some (.mem .zpgy), 2⟩,
   ⟨0xB9, .lda, some (.mem .absy), 3⟩,
   ⟨0xBC, .ldy, some (.mem .absx), 3⟩,
   ⟨0xBD, .lda, some (.mem .absx), 3⟩,
   ⟨0xBE, .ldx, some (.mem .absy), 3⟩]

/-- OPTABLE, opcodes 0xCx (R54). -/
def optableCx : OpTable :=
  [⟨0xC1, .cmp, some (.mem .indx), 2⟩,
   ⟨0xC5, .cmp, some (.mem .zpg), 2⟩,
   ⟨0xC8, .iny, none, 1⟩,
   ⟨0xC9, .cmp, some .imm, 2⟩,
   ⟨0xCA, .dex, none, 1⟩,
   ⟨0xCD, .cmp, some (.mem .abs), 3⟩]

/-- OPTABLE, opcodes 0xDx and 0xEx (R54). -/
def optableDx : OpTable :=
  [⟨0xD1, .cmp, some (.mem .indy), 2⟩,
   ⟨0xD5, .cmp, some (.mem .zpgx), 2⟩,
   ⟨0xD9, .cmp, some (.mem .absy), 3⟩,
   ⟨0xDD, .cmp, some (.mem .absx), 3⟩,
   ⟨0xE8, .inx, none, 1⟩,
   ⟨0xEA, .nop, none, 1⟩]

/-- OPTABLE, the 54 rows of R54 in the order of their opcode bytes. UNVERIFIED (log entry 4): the
rows are the spec's decision D1, which the spec marks as not in its source. -/
def optable : OpTable :=
  optableControl ++ optable8x ++ optable9x ++ optableAx ++ optableBx ++ optableCx ++ optableDx

/-- `OPTABLE[op]` (R57): the row of an opcode byte, if it has one. -/
def rowOf (t : OpTable) (op : Byte) : Option OpRow := t.find? fun r => r.opcode == op

/-- The row of a (mnemonic, mode) pair, if the table has one: what the encoder looks up. -/
def rowFor (t : OpTable) (d : Decoded) : Option OpRow :=
  t.find? fun r => r.mnemonic == d.mnemonic && r.mode == d.mode

/-- The instruction of R54 with a given mnemonic, mode and operand value; `none` for a pair that is no
row of R54, which stays a `Decoded` (log entry 9). -/
def instrOf (mn : Mnemonic) (mode : Option Mode) (v : Word) : Option Instr :=
  match mn, mode with
  | .nop, none => some .nop
  | .tax, none => some .tax
  | .txa, none => some .txa
  | .tay, none => some .tay
  | .tya, none => some .tya
  | .inx, none => some .inx
  | .dex, none => some .dex
  | .iny, none => some .iny
  | .dey, none => some .dey
  | .pha, none => some .pha
  | .pla, none => some .pla
  | .jmp, some (.mem .abs) => some (.jmpAbs v)
  | .jmp, some (.mem .ind) => some (.jmpInd v)
  | .jsr, some (.mem .abs) => some (.jsrAbs v)
  | .rts, none => some .rts
  | .cmp, some .imm => some (.cmpImm (lowByte v))
  | .cmp, some (.mem .zpg) => some (.cmpZpg (lowByte v))
  | .cmp, some (.mem .zpgx) => some (.cmpZpgx (lowByte v))
  | .cmp, some (.mem .abs) => some (.cmpAbs v)
  | .cmp, some (.mem .absx) => some (.cmpAbsx v)
  | .cmp, some (.mem .absy) => some (.cmpAbsy v)
  | .cmp, some (.mem .indx) => some (.cmpIndx (lowByte v))
  | .cmp, some (.mem .indy) => some (.cmpIndy (lowByte v))
  | .lda, some .imm => some (.ldaImm (lowByte v))
  | .lda, some (.mem .zpg) => some (.ldaZpg (lowByte v))
  | .lda, some (.mem .zpgx) => some (.ldaZpgx (lowByte v))
  | .lda, some (.mem .abs) => some (.ldaAbs v)
  | .lda, some (.mem .absx) => some (.ldaAbsx v)
  | .lda, some (.mem .absy) => some (.ldaAbsy v)
  | .lda, some (.mem .indx) => some (.ldaIndx (lowByte v))
  | .lda, some (.mem .indy) => some (.ldaIndy (lowByte v))
  | .ldx, some .imm => some (.ldxImm (lowByte v))
  | .ldx, some (.mem .zpg) => some (.ldxZpg (lowByte v))
  | .ldx, some (.mem .zpgy) => some (.ldxZpgy (lowByte v))
  | .ldx, some (.mem .abs) => some (.ldxAbs v)
  | .ldx, some (.mem .absy) => some (.ldxAbsy v)
  | .ldy, some .imm => some (.ldyImm (lowByte v))
  | .ldy, some (.mem .zpg) => some (.ldyZpg (lowByte v))
  | .ldy, some (.mem .zpgx) => some (.ldyZpgx (lowByte v))
  | .ldy, some (.mem .abs) => some (.ldyAbs v)
  | .ldy, some (.mem .absx) => some (.ldyAbsx v)
  | .sta, some (.mem .zpg) => some (.staZpg (lowByte v))
  | .sta, some (.mem .zpgx) => some (.staZpgx (lowByte v))
  | .sta, some (.mem .abs) => some (.staAbs v)
  | .sta, some (.mem .absx) => some (.staAbsx v)
  | .sta, some (.mem .absy) => some (.staAbsy v)
  | .sta, some (.mem .indx) => some (.staIndx (lowByte v))
  | .sta, some (.mem .indy) => some (.staIndy (lowByte v))
  | .stx, some (.mem .zpg) => some (.stxZpg (lowByte v))
  | .stx, some (.mem .zpgy) => some (.stxZpgy (lowByte v))
  | .stx, some (.mem .abs) => some (.stxAbs v)
  | .sty, some (.mem .zpg) => some (.styZpg (lowByte v))
  | .sty, some (.mem .zpgx) => some (.styZpgx (lowByte v))
  | .sty, some (.mem .abs) => some (.styAbs v)
  | _, _ => none

/-- Why a list of bytes is not an instruction. -/
inductive DecodeError where
  /-- The opcode byte has no row in the table (R55, R57). -/
  | invalidOpcode (op : Byte)
  /-- The bytes end before the operand does; at the top of memory this is R57's AddressOutOfRange. -/
  | truncated
  /-- The row's length is none of R50's, or OPTABLE has a row without an instruction. No table that
  `OpTable.construct` accepts has the one, and OPTABLE has not the other. -/
  | malformedTable
  deriving DecidableEq, Repr

/-- The operand value of an instruction of a given length and the bytes after it (R52). -/
def takeOperand (row : OpRow) (bytes : List Byte) : Except DecodeError (Word × List Byte) :=
  match row.length with
  | 1 => .ok (0, bytes)
  | 2 => match bytes with
    | b1 :: rest => .ok (zext b1, rest)
    | [] => .error .truncated
  | 3 => match bytes with
    | b1 :: b2 :: rest => .ok (joinBytes b2 b1, rest)
    | _ => .error .truncated
  | _ => .error .malformedTable

/-- The decoder (R57) over a table: what stands at the front of a list of bytes and the bytes after
it. The row's length column alone says how many bytes are taken (R58). -/
def decodeWith (t : OpTable) (bytes : List Byte) : Except DecodeError (Decoded × List Byte) :=
  match bytes with
  | [] => .error .truncated
  | op :: more =>
    match rowOf t op with
    | none => .error (.invalidOpcode op)
    | some row =>
      match takeOperand row more with
      | .error e => .error e
      | .ok (v, rest) => .ok (⟨row.mnemonic, row.mode, v⟩, rest)

/-- The decoder over OPTABLE (R54, R57), whose rows are the constructors of `Instr`. -/
def decode (bytes : List Byte) : Except DecodeError (Instr × List Byte) :=
  match decodeWith optable bytes with
  | .error e => .error e
  | .ok (d, rest) =>
    match instrOf d.mnemonic d.mode d.operand with
    | none => .error .malformedTable
    | some i => .ok (i, rest)

/-- The operand bytes of an operand value, low byte first (R51, R52). -/
def operandBytes (len : Nat) (v : Word) : List Byte :=
  match len with
  | 2 => [lowByte v]
  | 3 => [lowByte v, highByte v]
  | _ => []

/-- The encoder over a table: opcode and operand bytes, if the table has a row for the pair. -/
def encodeWith (t : OpTable) (d : Decoded) : Option (List Byte) :=
  (rowFor t d).map fun row => row.opcode :: operandBytes row.length d.operand

/-- The encoder over OPTABLE (R51, R54). -/
def encode (i : Instr) : Option (List Byte) := encodeWith optable i.decoded

/-- The three bytes of a table word: bits 7..0 at the lowest address, the bits above `nbits` zero. -/
def tableBytes (nbits w : Nat) : List Byte :=
  let m := w % 2 ^ nbits
  [BitVec.ofNat 8 m, BitVec.ofNat 8 (m / 256), BitVec.ofNat 8 (m / 65536)]

/-- What the decoder reads from a word numbered as the opcode table numbers it (bit 0 the least
significant bit of the first byte). -/
def decodeTableWord (nbits w : Nat) : Option Instr :=
  match decode (tableBytes nbits w) with
  | .ok (i, _) => some i
  | .error _ => none

end Sys2Proof
end

