-- ==== Sys2Proof/Machine/Ops.lean ====
section
/-! DEFINITION. The named operations over registers and memory, the stack, taking an exception,
reset, and the skeleton every instruction runs through (40_step_and_addressing.md R71, R74). -/

namespace Sys2Proof.Machine

/-! ### Registers -/

/-- Read of a general register (00_scope.md R5). -/
def State.getReg (s : State) : Reg → Byte
  | .a => s.a
  | .x => s.x
  | .y => s.y

/-- Write of a general register (R5). -/
def State.setReg (s : State) (r : Reg) (v : Byte) : State :=
  match r with
  | .a => { s with a := v }
  | .x => { s with x := v }
  | .y => { s with y := v }

/-! ### Memory access -/

/-- `MemRead(addr, 1)`, the document's `read8` (20_memory.md R32). Every 16-bit address exists (R39), so
a read at a `Word` cannot raise; an address computed on unbounded integers becomes a `Word` only
through `inRange`. A two-byte read is two of these (R34, R36). -/
def State.readByte (s : State) (a : Word) : Byte := s.mem.read a.toNat

/-- `MemWrite(addr, 1, b)`, the document's `write8` (R32): one byte changes and nothing else (R35). -/
def State.writeByte (s : State) (a : Word) (b : Byte) : State :=
  { s with mem := s.mem.write a.toNat b }

/-- The range discipline (R32, R33): a computed address above 0xFFFF "must fail, not wrap
silently". -/
def inRange (n : Nat) : Except Exc Word :=
  if n < addressCount then .ok (BitVec.ofNat 16 n) else .error .addressOutOfRange

/-! ### The stack -/

/-- `0x0100 + SP` (10_state.md R13). -/
def stackAddr (sp : Byte) : Word := joinBytes stackPage sp

/-- `Push(b)` (42_stack.md R120, R124). -/
def push (b : Byte) (s : State) : State :=
  { s.writeByte (stackAddr s.sp) b with sp := s.sp - 1 }

/-- `Pull()` (42_stack.md R121, R124): the byte and the state after. -/
def pull (s : State) : Byte × State :=
  let s' := { s with sp := s.sp + 1 }
  (s'.readByte (stackAddr s'.sp), s')

/-! ### Exceptions and reset -/

/-- `raise K` (60_exceptions.md R184): "no register, flag or memory byte is written; PC keeps the
address of the faulting instruction", and ST becomes `halted(K)`. There is no return from it but
reset (R186). -/
def raise (k : Exc) (s : State) : Result := .next { s with st := .halted k }

/-- The reset event (70_reset_and_hazards.md R210, 10_state.md R21), applied by the host in any
state. `a`, `x` and `y` are the values A, X and Y have afterwards, which the spec leaves open (R212):
a claim about reset holds for all of them. -/
def applyReset (a x y : Byte) (s : State) : State :=
  { a := a, x := x, y := y, sp := resetSp
    pc := joinBytes (s.readByte (resetVector + 1)) (s.readByte resetVector)
    flags := Flags.clear, st := .running, mem := s.mem }

/-- Launch: reset applied to an engine whose memory holds an image (00_scope.md, glossary; R213). -/
def launch (a x y : Byte) (image : Memory) : State :=
  applyReset a x y { State.reset with mem := image }

/-- The output `halted` (10_state.md R18, 20_memory.md R46). -/
def Status.haltedOut : Status → Bool
  | .running => false
  | .halted _ => true

/-- The output `kind`: 0 none, 1 InvalidOpcode, 2 AddressOutOfRange (R18, R180). -/
def Status.kindOut : Status → BitVec 2
  | .running => 0
  | .halted .invalidOpcode => 1
  | .halted .addressOutOfRange => 2

/-! ### The skeleton of an instruction -/

/-- What a handler reports: the state after it and whether it set PC itself (R74). -/
structure Handled where
  state : State
  pcSet : Bool
  deriving DecidableEq, Repr

/-- A handler that leaves PC to the step. -/
def advance (s : State) : Handled := ⟨s, false⟩

/-- A handler that sets PC itself (R75). -/
def jumpTo (target : Word) (s : State) : Handled := ⟨{ s with pc := target }, true⟩

/-- The central program-counter rule (R74): `PC <- PC + L` unless the handler set PC. -/
def settlePc (len : Nat) (h : Handled) : State :=
  if h.pcSet then h.state else { h.state with pc := h.state.pc + BitVec.ofNat 16 len }

/-- Whether a mnemonic needs the address after its instruction to exist: all but JMP and RTS (R72,
conditions 5 and 6; JSR pushes that address). -/
def needsSuccessor : Mnemonic → Bool
  | .jmp => false
  | .rts => false
  | _ => true

/-- The successor check (R71 stage 3; R72 conditions 5 and 6). -/
def successorOk (mn : Mnemonic) (len : Nat) (s : State) : Bool :=
  !needsSuccessor mn || decide (s.pc.toNat + len < addressCount)

/-- Stages 2 to 5 of the step (R71) for an instruction of length `len`: what its mode resolves to,
or the exception of resolving; the successor check; the handler; the program counter. Every
exception is raised before the handler writes anything (R72). -/
def perform {α : Type} (mn : Mnemonic) (len : Nat) (resolved : Except Exc α)
    (handler : α → State → Handled) (s : State) : Result :=
  match resolved with
  | .error k => raise k s
  | .ok x =>
    if successorOk mn len s then .next (settlePc len (handler x s))
    else raise .addressOutOfRange s

/-- `perform` for an instruction without an addressing mode (R90). -/
def performImplied (mn : Mnemonic) (handler : State → Handled) (s : State) : Result :=
  perform mn (modeLength none) (.ok ()) (fun _ => handler) s

/-- The next state of an answer, if it is one. -/
def nextState : Result → Option State
  | .next s => some s
  | .fault _ => none
  | .refused _ => none

end Sys2Proof.Machine
end

