-- ==== Sys2Proof/Machine/Operands.lean ====
section
/-! DEFINITION. The addressing-mode resolver (40_step_and_addressing.md R77 to R90, R92). It reads
X, Y and memory as they are before the instruction executes and writes nothing. -/

namespace Sys2Proof.Machine

/-- A pointer in the zero page whose low byte is at offset `p`: the high byte is at `(p + 1) mod 256`,
"without carry out of the zero page" (R85, R86). -/
def zeroPagePointer (p : Byte) (s : State) : Word :=
  joinBytes (s.readByte (zext (p + 1))) (s.readByte (zext p))

/-- Where `JMP ind` reads the high byte of its pointer (R87), under a setting of
JMP_IND_PAGE_CROSS. -/
def indHighAt (p : PageCross) (v : Word) : Except Exc Word :=
  if lowByte v = 0xFF then
    match p with
    | .carry => inRange (v.toNat + 1)
    | .samePage => .ok (joinBytes (highByte v) 0)
  else .ok (v + 1)

/-- Mode ind (R87) under a setting of JMP_IND_PAGE_CROSS. -/
def indTarget (p : PageCross) (v : Word) (s : State) : Except Exc Word :=
  match indHighAt p v with
  | .error k => .error k
  | .ok hiAt => .ok (joinBytes (s.readByte hiAt) (s.readByte v))

/-- `EA(mode, v)` (R79 to R87, R89). The operand value of the two-byte modes is a byte widened with
zeros, so `lowByte v` is all of it. -/
def effectiveAddress (m : MemMode) (v : Word) (s : State) : Except Exc Word :=
  match m with
  | .zpg => .ok (zext (lowByte v))
  | .zpgx => .ok (zext (lowByte v + s.x))
  | .zpgy => .ok (zext (lowByte v + s.y))
  | .abs => .ok v
  | .absx => inRange (v.toNat + s.x.toNat)
  | .absy => inRange (v.toNat + s.y.toNat)
  | .indx => .ok (zeroPagePointer (lowByte v + s.x) s)
  | .indy => inRange ((zeroPagePointer (lowByte v) s).toNat + s.y.toNat)
  | .ind => indTarget pageCross v s

/-- What the resolver answers: "EffectiveAddress | Immediate" (R77). -/
inductive Resolved where
  | immediate (b : Byte)
  | address (a : Word)
  deriving DecidableEq, Repr

/-- `resolve(instruction, registers, memory)` (R77, R78). -/
def resolve (m : Mode) (v : Word) (s : State) : Except Exc Resolved :=
  match m with
  | .imm => .ok (.immediate (lowByte v))
  | .mem mm =>
    match effectiveAddress mm v s with
    | .error k => .error k
    | .ok ea => .ok (.address ea)

/-- `OperandValue(mode, v)` (R88), of what the resolver answered. -/
def operandValue (o : Resolved) (s : State) : Byte :=
  match o with
  | .immediate b => b
  | .address a => s.readByte a

end Sys2Proof.Machine
end

