-- ==== Sys2Proof/Machine/Compare.lean ====
section
/-! DEFINITION. CMP (44_compare.md R150 to R152). -/

namespace Sys2Proof.Machine

/-- CMP in a mode (R150): C, Z and N from A and the operand value; A and memory are not changed. -/
def compareOperand (m : Mode) (v : Word) (s : State) : Result :=
  perform .cmp (modeLength (some m)) (resolve m v s)
    (fun o s => advance { s with flags := compareFlags s.a (operandValue o s) s.flags }) s

/-- CMP imm (R150). -/
def execCmpImm (b : Byte) (s : State) : Result :=
  compareOperand .imm (zext b) s

/-- CMP zpg (R150). -/
def execCmpZpg (b : Byte) (s : State) : Result :=
  compareOperand (.mem .zpg) (zext b) s

/-- CMP zpgx (R150). -/
def execCmpZpgx (b : Byte) (s : State) : Result :=
  compareOperand (.mem .zpgx) (zext b) s

/-- CMP abs (R150). -/
def execCmpAbs (v : Word) (s : State) : Result :=
  compareOperand (.mem .abs) v s

/-- CMP absx (R150). -/
def execCmpAbsx (v : Word) (s : State) : Result :=
  compareOperand (.mem .absx) v s

/-- CMP absy (R150). -/
def execCmpAbsy (v : Word) (s : State) : Result :=
  compareOperand (.mem .absy) v s

/-- CMP indx (R150). -/
def execCmpIndx (b : Byte) (s : State) : Result :=
  compareOperand (.mem .indx) (zext b) s

/-- CMP indy (R150). -/
def execCmpIndy (b : Byte) (s : State) : Result :=
  compareOperand (.mem .indy) (zext b) s

end Sys2Proof.Machine
end

