-- ==== Sys2Proof/Machine/Control.lean ====
section
/-! DEFINITION. JMP, JSR and RTS (43_control_flow.md R130 to R137). -/

namespace Sys2Proof.Machine

/-- A jump in a mode: "effective address from 'abs' or 'ind' mode becomes the new PC directly" (R130).
Nothing else changes, and the successor address need not exist. -/
def jump (m : MemMode) (v : Word) (s : State) : Result :=
  perform .jmp (modeLength (some (.mem m))) (effectiveAddress m v s) (fun target s => jumpTo target s) s

/-- JMP abs (R130). -/
def execJmpAbs (v : Word) (s : State) : Result := jump .abs v s

/-- JMP ind (R130, R87). -/
def execJmpInd (v : Word) (s : State) : Result := jump .ind v s

/-- JSR abs (R132): the return address `PC + 3` is pushed, high byte first, and PC becomes the
operand address. -/
def execJsrAbs (v : Word) (s : State) : Result :=
  perform .jsr (modeLength (some (.mem .abs))) (effectiveAddress .abs v s)
    (fun target s =>
      let ret := s.pc + 3
      jumpTo target (push (lowByte ret) (push (highByte ret) s))) s

/-- RTS (R133): two bytes are pulled, low byte first, and PC becomes the word they make; nothing is
added to it. -/
def execRts (s : State) : Result :=
  performImplied .rts
    (fun s =>
      let low := pull s
      let high := pull low.2
      jumpTo (joinBytes high.1 low.1) high.2) s

end Sys2Proof.Machine
end

