-- ==== Sys2Proof/Machine/LoadStore.lean ====
section
/-! DEFINITION. The loads and the stores (45_load_store.md R160 to R168). -/

namespace Sys2Proof.Machine

/-- A load of a register in a mode (45_load_store.md R160 to R162, R166): the register receives the
operand value; no flag is written. The mode is resolved with the index registers as they are before
the register is written (R167). -/
def load (mn : Mnemonic) (r : Reg) (m : Mode) (v : Word) (s : State) : Result :=
  perform mn (modeLength (some m)) (resolve m v s)
    (fun o s => advance (s.setReg r (operandValue o s))) s

/-- A store of a register in a mode (R163 to R165, R168): the byte at the effective address becomes
the register's value; nothing else changes. -/
def store (mn : Mnemonic) (r : Reg) (m : MemMode) (v : Word) (s : State) : Result :=
  perform mn (modeLength (some (.mem m))) (effectiveAddress m v s)
    (fun ea s => advance (s.writeByte ea (s.getReg r))) s

/-- LDA imm (R160). -/
def execLdaImm (b : Byte) (s : State) : Result :=
  load .lda .a .imm (zext b) s

/-- LDA zpg (R160). -/
def execLdaZpg (b : Byte) (s : State) : Result :=
  load .lda .a (.mem .zpg) (zext b) s

/-- LDA zpgx (R160). -/
def execLdaZpgx (b : Byte) (s : State) : Result :=
  load .lda .a (.mem .zpgx) (zext b) s

/-- LDA abs (R160). -/
def execLdaAbs (v : Word) (s : State) : Result :=
  load .lda .a (.mem .abs) v s

/-- LDA absx (R160). -/
def execLdaAbsx (v : Word) (s : State) : Result :=
  load .lda .a (.mem .absx) v s

/-- LDA absy (R160). -/
def execLdaAbsy (v : Word) (s : State) : Result :=
  load .lda .a (.mem .absy) v s

/-- LDA indx (R160). -/
def execLdaIndx (b : Byte) (s : State) : Result :=
  load .lda .a (.mem .indx) (zext b) s

/-- LDA indy (R160). -/
def execLdaIndy (b : Byte) (s : State) : Result :=
  load .lda .a (.mem .indy) (zext b) s

/-- LDX imm (R161). -/
def execLdxImm (b : Byte) (s : State) : Result :=
  load .ldx .x .imm (zext b) s

/-- LDX zpg (R161). -/
def execLdxZpg (b : Byte) (s : State) : Result :=
  load .ldx .x (.mem .zpg) (zext b) s

/-- LDX zpgy (R161). -/
def execLdxZpgy (b : Byte) (s : State) : Result :=
  load .ldx .x (.mem .zpgy) (zext b) s

/-- LDX abs (R161). -/
def execLdxAbs (v : Word) (s : State) : Result :=
  load .ldx .x (.mem .abs) v s

/-- LDX absy (R161). -/
def execLdxAbsy (v : Word) (s : State) : Result :=
  load .ldx .x (.mem .absy) v s

/-- LDY imm (R162). -/
def execLdyImm (b : Byte) (s : State) : Result :=
  load .ldy .y .imm (zext b) s

/-- LDY zpg (R162). -/
def execLdyZpg (b : Byte) (s : State) : Result :=
  load .ldy .y (.mem .zpg) (zext b) s

/-- LDY zpgx (R162). -/
def execLdyZpgx (b : Byte) (s : State) : Result :=
  load .ldy .y (.mem .zpgx) (zext b) s

/-- LDY abs (R162). -/
def execLdyAbs (v : Word) (s : State) : Result :=
  load .ldy .y (.mem .abs) v s

/-- LDY absx (R162). -/
def execLdyAbsx (v : Word) (s : State) : Result :=
  load .ldy .y (.mem .absx) v s

/-- STA zpg (R163). -/
def execStaZpg (b : Byte) (s : State) : Result :=
  store .sta .a .zpg (zext b) s

/-- STA zpgx (R163). -/
def execStaZpgx (b : Byte) (s : State) : Result :=
  store .sta .a .zpgx (zext b) s

/-- STA abs (R163). -/
def execStaAbs (v : Word) (s : State) : Result :=
  store .sta .a .abs v s

/-- STA absx (R163). -/
def execStaAbsx (v : Word) (s : State) : Result :=
  store .sta .a .absx v s

/-- STA absy (R163). -/
def execStaAbsy (v : Word) (s : State) : Result :=
  store .sta .a .absy v s

/-- STA indx (R163). -/
def execStaIndx (b : Byte) (s : State) : Result :=
  store .sta .a .indx (zext b) s

/-- STA indy (R163). -/
def execStaIndy (b : Byte) (s : State) : Result :=
  store .sta .a .indy (zext b) s

/-- STX zpg (R164). -/
def execStxZpg (b : Byte) (s : State) : Result :=
  store .stx .x .zpg (zext b) s

/-- STX zpgy (R164). -/
def execStxZpgy (b : Byte) (s : State) : Result :=
  store .stx .x .zpgy (zext b) s

/-- STX abs (R164). -/
def execStxAbs (v : Word) (s : State) : Result :=
  store .stx .x .abs v s

/-- STY zpg (R165). -/
def execStyZpg (b : Byte) (s : State) : Result :=
  store .sty .y .zpg (zext b) s

/-- STY zpgx (R165). -/
def execStyZpgx (b : Byte) (s : State) : Result :=
  store .sty .y .zpgx (zext b) s

/-- STY abs (R165). -/
def execStyAbs (v : Word) (s : State) : Result :=
  store .sty .y .abs v s

end Sys2Proof.Machine
end

