-- ==== Sys2Proof/Machine/Stack.lean ====
section
/-! DEFINITION. PHA and PLA (42_stack.md R120 to R124). -/

namespace Sys2Proof.Machine

/-- PHA: Push(A) (R122). -/
def execPha (s : State) : Result :=
  performImplied .pha (fun s => advance (push s.a s)) s

/-- PLA: A <- Pull(), no flag (R123). -/
def execPla (s : State) : Result :=
  performImplied .pla (fun s => advance ((pull s).2.setReg .a (pull s).1)) s

end Sys2Proof.Machine
end

