-- ==== Sys2Proof/Machine/Transfer.lean ====
section
/-! DEFINITION. NOP, the register transfers and the index increments and decrements
(41_nop_transfer_incdec.md R100 to R110). -/

namespace Sys2Proof.Machine

/-- NOP: No effect: "no state change" (R100). -/
def execNop (s : State) : Result :=
  performImplied .nop (fun s => advance s) s

/-- TAX: X <- A, no flag (R101, R109). -/
def execTax (s : State) : Result :=
  performImplied .tax (fun s => advance (s.setReg .x s.a)) s

/-- TXA: A <- X, no flag (R102, R109). -/
def execTxa (s : State) : Result :=
  performImplied .txa (fun s => advance (s.setReg .a s.x)) s

/-- TAY: Y <- A, no flag (R103, R109). -/
def execTay (s : State) : Result :=
  performImplied .tay (fun s => advance (s.setReg .y s.a)) s

/-- TYA: A <- Y, no flag (R104, R109). -/
def execTya (s : State) : Result :=
  performImplied .tya (fun s => advance (s.setReg .a s.y)) s

/-- INX: X <- (X + 1) mod 256, no flag (R105, R109). -/
def execInx (s : State) : Result :=
  performImplied .inx (fun s => advance (s.setReg .x (s.x + 1))) s

/-- DEX: X <- (X - 1) mod 256, no flag (R106, R109). -/
def execDex (s : State) : Result :=
  performImplied .dex (fun s => advance (s.setReg .x (s.x - 1))) s

/-- INY: Y <- (Y + 1) mod 256, no flag (R107, R109). -/
def execIny (s : State) : Result :=
  performImplied .iny (fun s => advance (s.setReg .y (s.y + 1))) s

/-- DEY: Y <- (Y - 1) mod 256, no flag (R108, R109). -/
def execDey (s : State) : Result :=
  performImplied .dey (fun s => advance (s.setReg .y (s.y - 1))) s

end Sys2Proof.Machine
end

