-- ==== Sys2Proof/Machine/Dispatch.lean ====
section
/-! DEFINITION. The dispatch (40_step_and_addressing.md R73): one arm per instruction, no default
case. -/

namespace Sys2Proof.Machine

def exec (i : Instr) (s : State) : Host.Outcome State Fault Refusal :=
  match i with
  | .nop => Sys2Proof.Machine.execNop s
  | .tax => Sys2Proof.Machine.execTax s
  | .txa => Sys2Proof.Machine.execTxa s
  | .tay => Sys2Proof.Machine.execTay s
  | .tya => Sys2Proof.Machine.execTya s
  | .inx => Sys2Proof.Machine.execInx s
  | .dex => Sys2Proof.Machine.execDex s
  | .iny => Sys2Proof.Machine.execIny s
  | .dey => Sys2Proof.Machine.execDey s
  | .pha => Sys2Proof.Machine.execPha s
  | .pla => Sys2Proof.Machine.execPla s
  | .jmpAbs v => Sys2Proof.Machine.execJmpAbs v s
  | .jmpInd v => Sys2Proof.Machine.execJmpInd v s
  | .jsrAbs v => Sys2Proof.Machine.execJsrAbs v s
  | .rts => Sys2Proof.Machine.execRts s
  | .cmpImm b => Sys2Proof.Machine.execCmpImm b s
  | .cmpZpg b => Sys2Proof.Machine.execCmpZpg b s
  | .cmpZpgx b => Sys2Proof.Machine.execCmpZpgx b s
  | .cmpAbs v => Sys2Proof.Machine.execCmpAbs v s
  | .cmpAbsx v => Sys2Proof.Machine.execCmpAbsx v s
  | .cmpAbsy v => Sys2Proof.Machine.execCmpAbsy v s
  | .cmpIndx b => Sys2Proof.Machine.execCmpIndx b s
  | .cmpIndy b => Sys2Proof.Machine.execCmpIndy b s
  | .ldaImm b => Sys2Proof.Machine.execLdaImm b s
  | .ldaZpg b => Sys2Proof.Machine.execLdaZpg b s
  | .ldaZpgx b => Sys2Proof.Machine.execLdaZpgx b s
  | .ldaAbs v => Sys2Proof.Machine.execLdaAbs v s
  | .ldaAbsx v => Sys2Proof.Machine.execLdaAbsx v s
  | .ldaAbsy v => Sys2Proof.Machine.execLdaAbsy v s
  | .ldaIndx b => Sys2Proof.Machine.execLdaIndx b s
  | .ldaIndy b => Sys2Proof.Machine.execLdaIndy b s
  | .ldxImm b => Sys2Proof.Machine.execLdxImm b s
  | .ldxZpg b => Sys2Proof.Machine.execLdxZpg b s
  | .ldxZpgy b => Sys2Proof.Machine.execLdxZpgy b s
  | .ldxAbs v => Sys2Proof.Machine.execLdxAbs v s
  | .ldxAbsy v => Sys2Proof.Machine.execLdxAbsy v s
  | .ldyImm b => Sys2Proof.Machine.execLdyImm b s
  | .ldyZpg b => Sys2Proof.Machine.execLdyZpg b s
  | .ldyZpgx b => Sys2Proof.Machine.execLdyZpgx b s
  | .ldyAbs v => Sys2Proof.Machine.execLdyAbs v s
  | .ldyAbsx v => Sys2Proof.Machine.execLdyAbsx v s
  | .staZpg b => Sys2Proof.Machine.execStaZpg b s
  | .staZpgx b => Sys2Proof.Machine.execStaZpgx b s
  | .staAbs v => Sys2Proof.Machine.execStaAbs v s
  | .staAbsx v => Sys2Proof.Machine.execStaAbsx v s
  | .staAbsy v => Sys2Proof.Machine.execStaAbsy v s
  | .staIndx b => Sys2Proof.Machine.execStaIndx b s
  | .staIndy b => Sys2Proof.Machine.execStaIndy b s
  | .stxZpg b => Sys2Proof.Machine.execStxZpg b s
  | .stxZpgy b => Sys2Proof.Machine.execStxZpgy b s
  | .stxAbs v => Sys2Proof.Machine.execStxAbs v s
  | .styZpg b => Sys2Proof.Machine.execStyZpg b s
  | .styZpgx b => Sys2Proof.Machine.execStyZpgx b s
  | .styAbs v => Sys2Proof.Machine.execStyAbs v s

end Sys2Proof.Machine
end

