-- ==== Sys2Proof/Machine/Fetch.lean ====
section
/-! DEFINITION. Fetching and decoding the instruction at PC (30_encoding.md R57) and what a failed
decode does (60_exceptions.md R181, R182). -/

namespace Sys2Proof.Machine

/-- At most `n` bytes from address `a` upwards, ending at the top of memory. -/
def bytesFrom (m : Memory) (a : Nat) : Nat → List Byte
  | 0 => []
  | n + 1 => if a < addressCount then m.read a :: bytesFrom m (a + 1) n else []

/-- The bytes an instruction at PC can consist of: three, or fewer at the top of memory (R50). -/
def fetchBytes (s : State) : List Byte := bytesFrom s.mem s.pc.toNat 3

/-- `Decode(PC)` (R57). Decode writes no state, and a read has no side effect (20_memory.md R35), so
it makes no difference to the state that the bytes are gathered before the length is known (log entry
10); Bus.lean lists the transactions the engine makes. -/
def fetchDecode (s : State) : Except DecodeError Instr :=
  match decode (fetchBytes s) with
  | .error e => .error e
  | .ok (i, _) => .ok i

/-- What the step does when there is no instruction at PC: InvalidOpcode for an undefined opcode
(R72 condition 1), AddressOutOfRange for operand bytes above 0xFFFF (R72 condition 2). The last case
is that of a table which no construction accepts (R56). -/
def decodeFailure (e : DecodeError) (s : State) : Result :=
  match e with
  | .invalidOpcode _ => raise .invalidOpcode s
  | .truncated => raise .addressOutOfRange s
  | .malformedTable => .refused .malformedTable

end Sys2Proof.Machine
end

