-- ==== Sys2Proof/Machine/Step.lean ====
section
/-! DEFINITION. The step (40_step_and_addressing.md R70, R71) and how an instruction word is placed
where the step fetches it. -/

namespace Sys2Proof.Machine

/-- One step (R71). A step happens only when ST is running (R70); in a halted state the machine
answers the fault that names the exception it halted on. -/
def step (s : State) : Host.Outcome State Fault Refusal :=
  match s.st with
  | .halted k => .fault (.halted k)
  | .running =>
    match fetchDecode s with
    | .ok i => exec i s
    | .error e => decodeFailure e s

/-- The state with an instruction word stored at PC and the engine running, so that the next step
runs that instruction. Bytes above the top of memory are dropped (log entry 7). -/
def State.withFetchWord (s : State) (nbits w : Nat) : State :=
  { s with
    mem := s.mem.writeList s.pc.toNat (tableBytes nbits w)
    st := .running }

end Sys2Proof.Machine
end

