-- ==== Sys2Proof/Machine/Bus.lean ====
section
/-! DEFINITION. The memory transactions of a step and of reset, and memory's replies, as a host that
watches the memory port sees them (20_memory.md R34, R36, R46; order: 40_step_and_addressing.md R91).
They are computed from the state before the step; they are not state. -/

namespace Sys2Proof.Machine

/-- A one-byte transaction (R46). -/
inductive Transaction where
  | read (a : Word)
  | write (a : Word) (b : Byte)
  deriving DecidableEq, Repr

/-- Stage 1: the opcode byte at PC. -/
def opcodeAccess (s : State) : List Transaction := [.read s.pc]

/-- Stage 2: the operand bytes at PC+1, then PC+2, of an instruction of length `len`. -/
def operandAccess (len : Nat) (s : State) : List Transaction :=
  match len with
  | 2 => [.read (s.pc + 1)]
  | 3 => [.read (s.pc + 1), .read (s.pc + 2)]
  | _ => []

/-- Stage 3: the resolver's pointer bytes, low-byte location first. A pointer high byte above 0xFFFF
raises and is not read. -/
def pointerAccess (mode : Option Mode) (v : Word) (s : State) : List Transaction :=
  match mode with
  | some (.mem .indx) => [.read (zext (lowByte v + s.x)), .read (zext (lowByte v + s.x + 1))]
  | some (.mem .indy) => [.read (zext (lowByte v)), .read (zext (lowByte v + 1))]
  | some (.mem .ind) =>
    match indHighAt pageCross v with
    | .ok hiAt => [.read v, .read hiAt]
    | .error _ => [.read v]
  | _ => []

/-- The exception an instruction raises once it is decoded: resolving its mode, then the successor
check (R72 conditions 3 to 6). -/
def raisedBy (i : Instr) (s : State) : Option Exc :=
  let resolved : Except Exc Unit :=
    match i.mode with
    | none => .ok ()
    | some m =>
      match resolve m i.operand s with
      | .error k => .error k
      | .ok _ => .ok ()
  match resolved with
  | .error k => some k
  | .ok _ => if successorOk i.mnemonic (instrLength i) s then none else some .addressOutOfRange

/-- The effective address of an instruction that has one (R77). -/
def addressOf (i : Instr) (s : State) : Option Word :=
  match i.mode with
  | some (.mem m) =>
    match effectiveAddress m i.operand s with
    | .ok ea => some ea
    | .error _ => none
  | _ => none

/-- Stage 4: the data read, or the stack reads, low byte first. -/
def dataAccess (i : Instr) (s : State) : List Transaction :=
  match i.mnemonic with
  | .lda | .ldx | .ldy | .cmp =>
    match addressOf i s with
    | some ea => [.read ea]
    | none => []
  | .pla => [.read (stackAddr (s.sp + 1))]
  | .rts => [.read (stackAddr (s.sp + 1)), .read (stackAddr (s.sp + 2))]
  | _ => []

/-- The store of one register at the effective address. -/
def storeAccess (r : Reg) (i : Instr) (s : State) : List Transaction :=
  match addressOf i s with
  | some ea => [.write ea (s.getReg r)]
  | none => []

/-- Stage 5: the write at the effective address, or the stack writes, high byte first for JSR. -/
def writeAccess (i : Instr) (s : State) : List Transaction :=
  match i.mnemonic with
  | .sta => storeAccess .a i s
  | .stx => storeAccess .x i s
  | .sty => storeAccess .y i s
  | .pha => [.write (stackAddr s.sp) s.a]
  | .jsr =>
    [.write (stackAddr s.sp) (highByte (s.pc + 3)), .write (stackAddr (s.sp - 1)) (lowByte (s.pc + 3))]
  | _ => []

/-- The transactions of a step (R91), none in a halted state (R46, R184). When the opcode is
undefined the bytes after it are not read (R55); when the operand bytes do not all lie below 0x10000
the two-byte read raises before it reads (R32, R57). An instruction that raises makes no data access. -/
def transactions (s : State) : List Transaction :=
  match s.st with
  | .halted _ => []
  | .running =>
    match fetchDecode s with
    | .error _ => opcodeAccess s
    | .ok i =>
      opcodeAccess s ++ operandAccess (instrLength i) s ++ pointerAccess i.mode i.operand s
        ++ (match raisedBy i s with
            | some _ => []
            | none => dataAccess i s ++ writeAccess i s)

/-- The transactions of reset, in any state (70_reset_and_hazards.md R210): `MemRead(RESET_VECTOR, 2)`,
"the only memory access of reset", which is two read transactions, low byte first (R46). -/
def resetTransactions : List Transaction := [.read resetVector, .read (resetVector + 1)]

/-- What memory does on a transaction (R46). -/
def Transaction.apply (t : Transaction) (m : Memory) : Memory :=
  match t with
  | .read _ => m
  | .write a b => m.write a.toNat b

/-- What memory answers to a transaction (R46): to a read `rdata = M[addr]`, to a write nothing ("no
reply is awaited or needed"). -/
def Transaction.reply (t : Transaction) (m : Memory) : Option Byte :=
  match t with
  | .read a => some (m.read a.toNat)
  | .write _ _ => none

/-- What memory answers to transactions in their order, each by what the ones before it left. -/
def replies (m : Memory) : List Transaction → List (Option Byte)
  | [] => []
  | t :: rest => t.reply m :: replies (t.apply m) rest

end Sys2Proof.Machine
end

