-- ==== Sys2Proof/WellFormed.lean ====
section
/-! DEFINITION. Well-formedness of an opcode table, by the three conditions of 30_encoding.md R56, and
the construction of a table, which refuses the others; well-formedness of an instruction, which must
have a row in the table. "All 256 values of each operand byte are legal for every defined opcode"
(R59), so an operand value is checked for its width alone. -/

namespace Sys2Proof

/-- R56 (a): each opcode byte has at most one row. -/
def OpTable.opcodesDistinct : OpTable → Bool
  | [] => true
  | r :: t => t.all (fun r' => r'.opcode != r.opcode) && opcodesDistinct t

/-- R56 (b): each row's length is the one R53 gives for its mode. -/
def OpTable.lengthsMatch (t : OpTable) : Bool := t.all fun r => r.length == modeLength r.mode

/-- R56 (c): each row's (mnemonic, mode) pair is admissible. -/
def OpTable.pairsAdmissible (t : OpTable) : Bool := t.all fun r => admissible r.mnemonic r.mode

/-- A well-formed table (R56). -/
def OpTable.wellFormed (t : OpTable) : Bool :=
  OpTable.opcodesDistinct t && OpTable.lengthsMatch t && OpTable.pairsAdmissible t

/-- Why a table is refused. -/
inductive TableError where
  /-- Two rows have one opcode byte: R56 (a). -/
  | duplicateOpcode
  /-- A row's length is not its mode's: R56 (b). -/
  | wrongLength
  /-- A row's mode is "structurally incompatible" with its mnemonic: R56 (c). -/
  | inadmissiblePair
  deriving DecidableEq, Repr

/-- The construction of a table from rows (R56): "a model rejects such a table when it is constructed,
not when it is executed". -/
def OpTable.construct (rows : List OpRow) : Except TableError OpTable :=
  if !OpTable.opcodesDistinct rows then .error .duplicateOpcode
  else if !OpTable.lengthsMatch rows then .error .wrongLength
  else if !OpTable.pairsAdmissible rows then .error .inadmissiblePair
  else .ok rows

/-- The operand value fits the operand bytes of the mode: none, one byte, or two (R52, R53). -/
def Decoded.operandFits (d : Decoded) : Bool :=
  match modeLength d.mode with
  | 1 => d.operand == 0
  | 2 => Machine.highByte d.operand == 0
  | _ => true

/-- Well formed over a table: the table has a row for the (mnemonic, mode) pair, without which there
is no encoding (R54, R56), and the operand value fits. -/
def Decoded.wellFormedIn (t : OpTable) (d : Decoded) : Bool := (rowFor t d).isSome && d.operandFits

/-- An instruction is well formed over a table when its mnemonic, mode and operand value are. -/
def Instr.wellFormedIn (t : OpTable) (i : Instr) : Bool := i.decoded.wellFormedIn t

/-- An instruction is well formed when OPTABLE has a row for it. -/
def Instr.wellFormed (i : Instr) : Bool := i.wellFormedIn optable

end Sys2Proof
end

