-- ==== Sys2Proof/Machine/Engine.lean ====
section
/-! DEFINITION. The engine over an opcode table (30_encoding.md R56, R57, R60; 00_scope.md R3, the
parameter OPTABLE): the dispatch on the mnemonic, the step, and the construction, which refuses a
table that is not well formed. Every pair that R56 admits runs here, also those R54 gives no opcode. -/

namespace Sys2Proof.Machine

/-- The handler of a mnemonic that takes any mode (loads and CMP). -/
def withMode (mode : Option Mode) (run : Mode → Result) : Result :=
  match mode with
  | some m => run m
  | none => .refused .malformedTable

/-- The handler of a mnemonic that takes a mode with an effective address (stores and JMP). -/
def withMemMode (mode : Option Mode) (run : MemMode → Result) : Result :=
  match mode with
  | some (.mem m) => run m
  | _ => .refused .malformedTable

/-- Execute (40_step_and_addressing.md R73): "a single dispatch table or switch mapping each variant to
its handler function" (R60). -/
def execDecoded (d : Decoded) (s : State) : Result :=
  match d.mnemonic with
  | .nop => execNop s
  | .tax => execTax s
  | .txa => execTxa s
  | .tay => execTay s
  | .tya => execTya s
  | .inx => execInx s
  | .dex => execDex s
  | .iny => execIny s
  | .dey => execDey s
  | .pha => execPha s
  | .pla => execPla s
  | .jmp => withMemMode d.mode fun m => jump m d.operand s
  | .jsr => execJsrAbs d.operand s
  | .rts => execRts s
  | .cmp => withMode d.mode fun m => compareOperand m d.operand s
  | .lda => withMode d.mode fun m => load .lda .a m d.operand s
  | .ldx => withMode d.mode fun m => load .ldx .x m d.operand s
  | .ldy => withMode d.mode fun m => load .ldy .y m d.operand s
  | .sta => withMemMode d.mode fun m => store .sta .a m d.operand s
  | .stx => withMemMode d.mode fun m => store .stx .x m d.operand s
  | .sty => withMemMode d.mode fun m => store .sty .y m d.operand s

/-- One step (R71) over a table. -/
def stepWith (t : OpTable) (s : State) : Result :=
  match s.st with
  | .halted k => .fault (.halted k)
  | .running =>
    match decodeWith t (fetchBytes s) with
    | .ok (d, _) => execDecoded d s
    | .error e => decodeFailure e s

/-- The construction of an engine from the rows of a table: of a table that is not well formed "no
engine is built from it" (R56; 93_implementation_defined.md U5). -/
def buildEngine (rows : List OpRow) : Except TableError (State → Result) :=
  match OpTable.construct rows with
  | .ok t => .ok (stepWith t)
  | .error e => .error e

end Sys2Proof.Machine
end

