-- ==== Sys2Proof/Safety.lean ====
section
/-! DEFINITION. The terms the claims are stated in: the invariant of the engine, reachable states,
the raise conditions of R72 in the spec's arithmetic, and the two ends of a run (R217). -/

namespace Sys2Proof.Machine

/-- The invariant of every run: memory keeps its canonical form, and V, B, D and I are false: "V, B,
D and I are false at every moment of every run" (10_state.md R16). -/
def EngineInv (s : State) : Prop :=
  s.mem.wf = true ∧ s.flags.v = false ∧ s.flags.b = false ∧ s.flags.d = false ∧ s.flags.i = false

/-- The states of all runs: launched on any memory image with any values of A, X and Y (R21, R213),
then stepped, or reset again by the host at any time (R210). -/
inductive Reachable : State → Prop where
  | launched (a x y : Byte) (image : Memory) (h : image.wf = true) : Reachable (launch a x y image)
  | stepped (s t : State) (hs : Reachable s) (h : step s = .next t) : Reachable t
  | resetAgain (a x y : Byte) (s : State) (hs : Reachable s) : Reachable (applyReset a x y s)

/-- The address after an instruction of length `len` at PC exists: `PC + L <= 0xFFFF` (R72
conditions 5 and 6). -/
def hasSuccessor (len : Nat) (s : State) : Prop := s.pc.toNat + len ≤ 0xFFFF

/-- Conditions 3 and 4 of R72, in the spec's arithmetic on unsigned integers. -/
def addressOverflow (mode : Option Mode) (v : Word) (s : State) : Prop :=
  match mode with
  | some (.mem .absx) => 0xFFFF < v.toNat + s.x.toNat
  | some (.mem .absy) => 0xFFFF < v.toNat + s.y.toNat
  | some (.mem .indy) =>
    0xFFFF < 256 * (s.mem.read ((v.toNat + 1) % 256)).toNat + (s.mem.read v.toNat).toNat + s.y.toNat
  | some (.mem .ind) => pageCross = .carry ∧ v.toNat = 0xFFFF
  | _ => False

/-- Conditions 3 to 6 of R72 for a decoded instruction. -/
def raiseCondition (i : Instr) (s : State) : Prop :=
  addressOverflow i.mode i.operand s ∨
    (i.mnemonic ≠ .jmp ∧ i.mnemonic ≠ .rts ∧ ¬ hasSuccessor (instrLength i) s)

/-- The undefined opcodes, as the spec lists them (30_encoding.md R55): inclusive ranges of byte
values, 202 in all. -/
def undefinedRanges : List (Nat × Nat) :=
  [(0x00, 0x1F), (0x21, 0x47), (0x49, 0x4B), (0x4D, 0x5F), (0x61, 0x67), (0x69, 0x6B), (0x6D, 0x80),
   (0x82, 0x83), (0x87, 0x87), (0x89, 0x89), (0x8B, 0x8B), (0x8F, 0x90), (0x92, 0x93), (0x97, 0x97),
   (0x9A, 0x9C), (0x9E, 0x9F), (0xA3, 0xA3), (0xA7, 0xA7), (0xAB, 0xAB), (0xAF, 0xB0)] ++
  [(0xB2, 0xB3), (0xB7, 0xB8), (0xBA, 0xBB), (0xBF, 0xC0), (0xC2, 0xC4), (0xC6, 0xC7), (0xCB, 0xCC),
   (0xCE, 0xD0), (0xD2, 0xD4), (0xD6, 0xD8), (0xDA, 0xDC), (0xDE, 0xE7), (0xE9, 0xE9), (0xEB, 0xFF)]

/-- A byte is an undefined opcode (R55). -/
def undefinedOpcode (op : Byte) : Bool :=
  undefinedRanges.any fun r => decide (r.1 ≤ op.toNat) && decide (op.toNat ≤ r.2)

/-- The modes with an effective address that a load, a store or CMP may have: all but ind. -/
def addressModes : List (Option Mode) :=
  [some (.mem .zpg), some (.mem .zpgx), some (.mem .zpgy), some (.mem .abs), some (.mem .absx),
   some (.mem .absy), some (.mem .indx), some (.mem .indy)]

/-- The admissible modes of each mnemonic, as the spec lists them (30_encoding.md R56). -/
def admissibleModes : Mnemonic → List (Option Mode)
  | .nop | .tax | .txa | .tay | .tya | .inx | .dex | .iny | .dey | .pha | .pla | .rts => [none]
  | .jmp => [some (.mem .abs), some (.mem .ind)]
  | .jsr => [some (.mem .abs)]
  | .lda | .ldx | .ldy | .cmp => some .imm :: addressModes
  | .sta | .stx | .sty => addressModes

/-- The 21 mnemonics in the spec's order (R60). -/
def allMnemonics : List Mnemonic :=
  [.nop, .tax, .txa, .tay, .tya, .inx, .dex, .iny, .dey, .pha, .pla, .jmp, .jsr, .rts, .cmp, .lda, .ldx,
   .ldy, .sta, .stx, .sty]

/-- The engine is parked (R217): it runs, and a `JMP abs` to its own address stands at PC. -/
def Parked (s : State) : Prop :=
  s.st = .running ∧ fetchDecode s = .ok (.jmpAbs s.pc)

end Sys2Proof.Machine
end

