-- ==== Sys2Proof/Certificates/Slice0/Obligations.lean ====
section
/-! DEFINITION. The statements for the provers. Each formalises rules of spec/, named in its
docstring; `raise k s` is the state `s` with ST = halted(k) and nothing else changed (R184). -/

open Sys2Proof Sys2Proof.Machine

/-! ### Encoding -/

/-- R51, R52, R54, R56 (derived). Over every table that is well formed by R56, not only the default
one, the decoder reads every pair of the table back from its encoding, with every operand value that
fits, and leaves the bytes after it; over the default table every instruction, with every operand, has
an encoding and is read back from it. -/
def Obligations.DecodeInvertsEncode : Prop :=
  (∀ (t : OpTable) (d : Decoded) (bytes rest : List Byte), OpTable.wellFormed t = true →
    d.operandFits = true → encodeWith t d = some bytes →
    decodeWith t (bytes ++ rest) = .ok (d, rest)) ∧
  ∀ (i : Instr) (rest : List Byte), i.decoded.operandFits = true ∧
    ∃ bytes, encode i = some bytes ∧ decode (bytes ++ rest) = .ok (i, rest)

/-- R54, R55 (derived). Whatever the decoder reads as an instruction is the encoding of that
instruction followed by the bytes left over: no second encoding of an instruction exists in OPTABLE. -/
def Obligations.EncodeInvertsDecode : Prop :=
  ∀ (bytes rest : List Byte) (i : Instr), decode bytes = .ok (i, rest) →
    ∃ own, encode i = some own ∧ bytes = own ++ rest

/-- R53, R54, R59 (derived). Every instruction, with every operand value, has an encoding, of the
length its mode gives, between one and three bytes. -/
def Obligations.EveryInstructionEncodes : Prop :=
  ∀ i : Instr, i.wellFormed = true ∧
    ∃ bytes, encode i = some bytes ∧ bytes.length = instrLength i ∧ 1 ≤ bytes.length ∧ bytes.length ≤ 3

/-- R50 (derived). Over every well-formed table: an instruction is one to three bytes at the front,
and the first byte alone fixes mnemonic, mode and length. -/
def Obligations.OpcodeByteFixesInstructionShape : Prop :=
  ∀ (t : OpTable) (op : Byte) (more₁ more₂ rest₁ rest₂ : List Byte) (d₁ d₂ : Decoded),
    OpTable.wellFormed t = true →
    decodeWith t (op :: more₁) = .ok (d₁, rest₁) → decodeWith t (op :: more₂) = .ok (d₂, rest₂) →
    d₁.mnemonic = d₂.mnemonic ∧ d₁.mode = d₂.mode ∧
    1 ≤ modeLength d₁.mode ∧ modeLength d₁.mode ≤ 3 ∧
    ∃ own, more₁ = own ++ rest₁ ∧ own.length + 1 = modeLength d₁.mode

/-- R52. The operand value: none for length 1, the byte widened with zeros for length 2, the two
bytes with the first of them low for length 3. -/
def Obligations.OperandBytesAreLittleEndian : Prop :=
  ∀ (op b1 b2 : Byte) (rest : List Byte) (i : Instr), decode [op, b1, b2] = .ok (i, rest) →
    (instrLength i = 1 → rest = [b1, b2]) ∧
    (instrLength i = 2 → i.operand.toNat = b1.toNat ∧ rest = [b2]) ∧
    (instrLength i = 3 → i.operand.toNat = 256 * b2.toNat + b1.toNat ∧ rest = [])

/-- Words written out from the spec's encodings (R54 and vectors DC1 to DC11) decode to the
instructions they stand for, one of each family, and bytes that are no instruction are refused by
name. A sanity statement. -/
def Obligations.SpecWordsDecode : Prop :=
  decode [0xEA#8] = .ok (.nop, []) ∧
  decode [0xA9#8, 0x05#8] = .ok (.ldaImm 0x05, []) ∧
  decode [0xB5#8, 0xF0#8] = .ok (.ldaZpgx 0xF0, []) ∧
  decode [0xBD#8, 0x20#8, 0x02#8] = .ok (.ldaAbsx 0x0220, []) ∧
  decode [0x6C#8, 0x40#8, 0x00#8] = .ok (.jmpInd 0x0040, []) ∧
  decode [0x20#8, 0x09#8, 0x02#8] = .ok (.jsrAbs 0x0209, []) ∧
  decode [0x96#8, 0xFE#8] = .ok (.stxZpgy 0xFE, []) ∧
  decode [0xC1#8, 0xF0#8] = .ok (.cmpIndx 0xF0, []) ∧
  decode [0x48#8] = .ok (.pha, []) ∧
  decode [0xA7#8, 0x10#8] = .error (.invalidOpcode 0xA7) ∧
  decode [0xBD#8, 0x20#8] = .error .truncated

/-! ### The instructions without a memory operand -/

/-- R100 (derived for the raise: R72 condition 5 (the spec's decision D7, log entry 11)). NOP, opcode
0xEA, changes PC and nothing else; at 0xFFFF, where its successor does not exist, it raises. -/
def Obligations.NopOnlyAdvancesPc : Prop :=
  encode .nop = some [0xEA] ∧
  ∀ s : State,
    (hasSuccessor 1 s → exec .nop s = .next { s with pc := s.pc + 1 }) ∧
    (¬ hasSuccessor 1 s → exec .nop s = raise .addressOutOfRange s)

/-- R101 to R104 (derived for the raise: R72 condition 5 (the spec's decision D7, log entry 11)). TAX,
TXA, TAY, TYA copy one register into another, write no flag and change nothing else; at 0xFFFF they
raise. -/
def Obligations.TransfersCopyOneRegister : Prop :=
  encode .tax = some [0xAA] ∧ encode .txa = some [0x8A] ∧
  encode .tay = some [0xA8] ∧ encode .tya = some [0x98] ∧
  ∀ s : State,
    (hasSuccessor 1 s →
      exec .tax s = .next { s with x := s.a, pc := s.pc + 1 } ∧
      exec .txa s = .next { s with a := s.x, pc := s.pc + 1 } ∧
      exec .tay s = .next { s with y := s.a, pc := s.pc + 1 } ∧
      exec .tya s = .next { s with a := s.y, pc := s.pc + 1 }) ∧
    (¬ hasSuccessor 1 s →
      exec .tax s = raise .addressOutOfRange s ∧ exec .txa s = raise .addressOutOfRange s ∧
      exec .tay s = raise .addressOutOfRange s ∧ exec .tya s = raise .addressOutOfRange s)

/-- R105 to R108, R109 (derived: that no flag is written is the spec's decision D9, its reading of a
silence; the raise is R72 condition 5 (the spec's decision D7, log entry 11)). INX, DEX, INY, DEY add
or subtract one modulo 256, write no flag and change nothing else; at 0xFFFF they raise. -/
def Obligations.IncrementsAndDecrementsWrap : Prop :=
  encode .inx = some [0xE8] ∧ encode .dex = some [0xCA] ∧
  encode .iny = some [0xC8] ∧ encode .dey = some [0x88] ∧
  ∀ s : State,
    (hasSuccessor 1 s →
      exec .inx s = .next { s with x := BitVec.ofNat 8 ((s.x.toNat + 1) % 256), pc := s.pc + 1 } ∧
      exec .dex s =
        .next { s with x := BitVec.ofNat 8 (if s.x.toNat = 0 then 0xFF else s.x.toNat - 1), pc := s.pc + 1 } ∧
      exec .iny s = .next { s with y := BitVec.ofNat 8 ((s.y.toNat + 1) % 256), pc := s.pc + 1 } ∧
      exec .dey s =
        .next { s with y := BitVec.ofNat 8 (if s.y.toNat = 0 then 0xFF else s.y.toNat - 1), pc := s.pc + 1 }) ∧
    (¬ hasSuccessor 1 s →
      exec .inx s = raise .addressOutOfRange s ∧ exec .dex s = raise .addressOutOfRange s ∧
      exec .iny s = raise .addressOutOfRange s ∧ exec .dey s = raise .addressOutOfRange s)

/-- R110 (derived). INX then DEX, and INY then DEY, restore the register for every starting value. -/
def Obligations.IncrementThenDecrementRestores : Prop :=
  ∀ s : State, hasSuccessor 2 s →
    (∃ t, exec .inx s = .next t ∧ exec .dex t = .next { s with pc := s.pc + 2 }) ∧
    (∃ t, exec .iny s = .next t ∧ exec .dey t = .next { s with pc := s.pc + 2 })

/-! ### The stack -/

/-- R120, R121. Push writes at `0x0100 + SP` and then decrements SP modulo 256; Pull increments SP
modulo 256 and then reads at `0x0100 + SP`; neither changes anything else, and the slot is always in
page 1. -/
def Obligations.PushAndPullUseTheStackPage : Prop :=
  ∀ (b : Byte) (s : State),
    push b s = { s with sp := BitVec.ofNat 8 ((s.sp.toNat + 255) % 256)
                        mem := s.mem.write (0x0100 + s.sp.toNat) b } ∧
    pull s = (s.mem.read (0x0100 + (s.sp.toNat + 1) % 256),
              { s with sp := BitVec.ofNat 8 ((s.sp.toNat + 1) % 256) }) ∧
    (stackAddr s.sp).toNat = 0x0100 + s.sp.toNat

/-- R124 (derived). The stack is a ring: any number of pushes moves SP down by that number modulo 256
and writes no address outside page 1. -/
def Obligations.StackIsRingInPageOne : Prop :=
  ∀ (bs : List Byte) (s : State),
    let t := bs.foldl (fun u b => push b u) s
    t.sp = s.sp - BitVec.ofNat 8 bs.length ∧
    (∀ a : Word, a.toNat < 0x0100 ∨ 0x01FF < a.toNat → t.readByte a = s.readByte a) ∧
    t = { s with sp := t.sp, mem := t.mem }

/-- R122, R123 but for its last law (derived: that PLA writes no flag is the spec's decision D9; the
raise is R72 condition 5 (the spec's decision D7, log entry 11)). PHA stores A at `0x0100 + SP` and
then decrements SP; PLA increments SP and then loads A from `0x0100 + SP`; no flag is written; at
0xFFFF they raise. -/
def Obligations.PhaAndPlaMoveTheAccumulator : Prop :=
  encode .pha = some [0x48] ∧ encode .pla = some [0x68] ∧
  ∀ s : State,
    (hasSuccessor 1 s →
      exec .pha s = .next { s with sp := s.sp - 1, pc := s.pc + 1
                                   mem := s.mem.write (0x0100 + s.sp.toNat) s.a } ∧
      exec .pla s = .next { s with a := s.mem.read (0x0100 + (s.sp + 1).toNat)
                                   sp := s.sp + 1, pc := s.pc + 1 }) ∧
    (¬ hasSuccessor 1 s →
      exec .pha s = raise .addressOutOfRange s ∧ exec .pla s = raise .addressOutOfRange s)

/-- R123, last law (derived). PHA and a later PLA restore A and SP for every starting state, whatever
A holds in between; X, Y and the flags are as before. -/
def Obligations.PhaThenPlaRestoresAccumulator : Prop :=
  ∀ (s : State) (between : Byte), hasSuccessor 2 s →
    ∃ t, exec .pha s = .next t ∧
      exec .pla { t with a := between } = .next { s with pc := s.pc + 2, mem := t.mem }

/-! ### Control transfer -/

/-- R130, R87 (derived: the page-end setting is free, log entry 5). JMP abs sets PC to its operand,
JMP ind to the word its operand points at, with the high byte at a page end where JMP_IND_PAGE_CROSS
puts it; nothing else changes and no successor is needed. -/
def Obligations.JmpSetsPcAlone : Prop :=
  ∀ (v : Word) (s : State),
    encode (.jmpAbs v) = some [0x4C, lowByte v, highByte v] ∧
    encode (.jmpInd v) = some [0x6C, lowByte v, highByte v] ∧
    exec (.jmpAbs v) s = .next { s with pc := v } ∧
    (v.toNat % 256 ≠ 0xFF →
      exec (.jmpInd v) s =
        .next { s with pc := joinBytes (s.mem.read (v.toNat + 1)) (s.mem.read v.toNat) }) ∧
    (v.toNat % 256 = 0xFF →
      exec (.jmpInd v) s =
        match pageCross with
        | .samePage =>
          .next { s with pc := joinBytes (s.mem.read (v.toNat - 0xFF)) (s.mem.read v.toNat) }
        | .carry =>
          if v.toNat = 0xFFFF then raise .addressOutOfRange s
          else .next { s with pc := joinBytes (s.mem.read (v.toNat + 1)) (s.mem.read v.toNat) })

/-- R132. JSR pushes the address of the byte after itself, high byte first, and sets PC to its
operand; where that address does not exist it raises and pushes nothing. -/
def Obligations.JsrPushesReturnAddress : Prop :=
  ∀ (v : Word) (s : State),
    encode (.jsrAbs v) = some [0x20, lowByte v, highByte v] ∧
    (hasSuccessor 3 s →
      exec (.jsrAbs v) s =
        .next { s with
          pc := v, sp := s.sp - 2
          mem := (s.mem.write (0x0100 + s.sp.toNat) (highByte (s.pc + 3))).write
            (0x0100 + (s.sp - 1).toNat) (lowByte (s.pc + 3)) }) ∧
    (¬ hasSuccessor 3 s → exec (.jsrAbs v) s = raise .addressOutOfRange s)

/-- R133. RTS pulls the low byte and then the high byte and sets PC to the word they make, with
nothing added; it never raises, not even at 0xFFFF. -/
def Obligations.RtsPullsReturnAddress : Prop :=
  encode .rts = some [0x60] ∧
  ∀ s : State,
    exec .rts s =
      .next { s with
        sp := s.sp + 2
        pc := joinBytes (s.mem.read (0x0100 + (s.sp + 2).toNat)) (s.mem.read (0x0100 + (s.sp + 1).toNat)) }

/-- R136 (derived). An RTS executed when SP is what the JSR left and the two stacked bytes are intact
returns to the address after the JSR with SP as before it. -/
def Obligations.JsrThenRtsReturns : Prop :=
  ∀ (s : State) (v : Word), s.pc.toNat ≤ 0xFFFC →
    ∃ t, exec (.jsrAbs v) s = .next t ∧ t.sp = s.sp - 2 ∧ t.pc = v ∧
      ∀ u : State, u.sp = s.sp - 2 →
        u.readByte (stackAddr s.sp) = t.readByte (stackAddr s.sp) →
        u.readByte (stackAddr (s.sp - 1)) = t.readByte (stackAddr (s.sp - 1)) →
        exec .rts u = .next { u with pc := s.pc + 3, sp := s.sp }

/-! ### Compare, loads and stores -/

/-- R150. CMP, in each of its modes: C = (A >= value) unsigned, Z = (A == value), N = (A >= 0x80),
nothing else but PC; the exceptions are the shared step's. -/
def Obligations.CmpSetsCarryZeroNegative : Prop :=
  (∀ (b : Byte) (v : Word),
    encode (.cmpImm b) = some [0xC9, b] ∧ encode (.cmpZpg b) = some [0xC5, b] ∧
    encode (.cmpZpgx b) = some [0xD5, b] ∧ encode (.cmpIndx b) = some [0xC1, b] ∧
    encode (.cmpIndy b) = some [0xD1, b] ∧
    encode (.cmpAbs v) = some [0xCD, lowByte v, highByte v] ∧
    encode (.cmpAbsx v) = some [0xDD, lowByte v, highByte v] ∧
    encode (.cmpAbsy v) = some [0xD9, lowByte v, highByte v]) ∧
  ∀ (i : Instr) (m : Mode) (s : State), i.mnemonic = .cmp → i.mode = some m →
    (∀ o, resolve m i.operand s = .ok o → hasSuccessor (instrLength i) s →
      exec i s = .next { s with
        flags := { s.flags with
          c := decide ((operandValue o s).toNat ≤ s.a.toNat)
          z := decide (s.a.toNat = (operandValue o s).toNat)
          n := decide (0x80 ≤ s.a.toNat) }
        pc := s.pc + BitVec.ofNat 16 (instrLength i) }) ∧
    (∀ o, resolve m i.operand s = .ok o → ¬ hasSuccessor (instrLength i) s →
      exec i s = raise .addressOutOfRange s) ∧
    (∀ k, resolve m i.operand s = .error k → exec i s = raise k s)

/-- R160, R161, R162, R166 (derived: that no flag is written is the spec's decision D9, the reading it
calls the riskiest, log entry 11; the raises are R72's, decisions D6 and D7). LDA, LDX, LDY, in each
of their modes, load the operand value into A, X or Y and change nothing else but PC, no flag; when
the mode raises or the successor does not exist the step raises. -/
def Obligations.LoadsTakeTheOperandValue : Prop :=
  (∀ (b : Byte) (v : Word),
    encode (.ldaImm b) = some [0xA9, b] ∧ encode (.ldaZpg b) = some [0xA5, b] ∧
    encode (.ldaZpgx b) = some [0xB5, b] ∧ encode (.ldaIndx b) = some [0xA1, b] ∧
    encode (.ldaIndy b) = some [0xB1, b] ∧
    encode (.ldaAbs v) = some [0xAD, lowByte v, highByte v] ∧
    encode (.ldaAbsx v) = some [0xBD, lowByte v, highByte v] ∧
    encode (.ldaAbsy v) = some [0xB9, lowByte v, highByte v] ∧
    encode (.ldxImm b) = some [0xA2, b] ∧ encode (.ldxZpg b) = some [0xA6, b] ∧
    encode (.ldxZpgy b) = some [0xB6, b] ∧
    encode (.ldxAbs v) = some [0xAE, lowByte v, highByte v] ∧
    encode (.ldxAbsy v) = some [0xBE, lowByte v, highByte v] ∧
    encode (.ldyImm b) = some [0xA0, b] ∧ encode (.ldyZpg b) = some [0xA4, b] ∧
    encode (.ldyZpgx b) = some [0xB4, b] ∧
    encode (.ldyAbs v) = some [0xAC, lowByte v, highByte v] ∧
    encode (.ldyAbsx v) = some [0xBC, lowByte v, highByte v]) ∧
  ∀ (i : Instr) (r : Reg) (m : Mode) (s : State),
    (i.mnemonic, r) ∈ [(Mnemonic.lda, Reg.a), (.ldx, .x), (.ldy, .y)] → i.mode = some m →
    (∀ o, resolve m i.operand s = .ok o → hasSuccessor (instrLength i) s →
      exec i s = .next { s.setReg r (operandValue o s) with
        pc := s.pc + BitVec.ofNat 16 (instrLength i) }) ∧
    (∀ o, resolve m i.operand s = .ok o → ¬ hasSuccessor (instrLength i) s →
      exec i s = raise .addressOutOfRange s) ∧
    (∀ k, resolve m i.operand s = .error k → exec i s = raise k s)

/-- R163, R164, R165. STA, STX, STY, in each of their modes, write the register to the byte at the
effective address and change nothing else but PC; when the step raises nothing is written. -/
def Obligations.StoresWriteTheRegister : Prop :=
  (∀ (b : Byte) (v : Word),
    encode (.staZpg b) = some [0x85, b] ∧ encode (.staZpgx b) = some [0x95, b] ∧
    encode (.staIndx b) = some [0x81, b] ∧ encode (.staIndy b) = some [0x91, b] ∧
    encode (.staAbs v) = some [0x8D, lowByte v, highByte v] ∧
    encode (.staAbsx v) = some [0x9D, lowByte v, highByte v] ∧
    encode (.staAbsy v) = some [0x99, lowByte v, highByte v] ∧
    encode (.stxZpg b) = some [0x86, b] ∧ encode (.stxZpgy b) = some [0x96, b] ∧
    encode (.stxAbs v) = some [0x8E, lowByte v, highByte v] ∧
    encode (.styZpg b) = some [0x84, b] ∧ encode (.styZpgx b) = some [0x94, b] ∧
    encode (.styAbs v) = some [0x8C, lowByte v, highByte v]) ∧
  ∀ (i : Instr) (r : Reg) (m : MemMode) (s : State),
    (i.mnemonic, r) ∈ [(Mnemonic.sta, Reg.a), (.stx, .x), (.sty, .y)] → i.mode = some (.mem m) →
    (∀ ea, effectiveAddress m i.operand s = .ok ea → hasSuccessor (instrLength i) s →
      exec i s = .next { s with
        mem := s.mem.write ea.toNat (s.getReg r)
        pc := s.pc + BitVec.ofNat 16 (instrLength i) }) ∧
    (∀ ea, effectiveAddress m i.operand s = .ok ea → ¬ hasSuccessor (instrLength i) s →
      exec i s = raise .addressOutOfRange s) ∧
    (∀ k, effectiveAddress m i.operand s = .error k → exec i s = raise k s)

/-- R167 (derived). A load resolves its mode before it writes its destination, for every register,
mode and operand value: a mode indexed by the destination uses the old value. The pairs are those of
the shared operation `load`; the default table has none indexed by its own destination. -/
def Obligations.LoadUsesOldIndex : Prop :=
  (∀ (mn : Mnemonic) (r : Reg) (m : Mode) (v : Word) (s : State) (o : Resolved),
    mn ∈ [Mnemonic.lda, .ldx, .ldy] → resolve m v s = .ok o → hasSuccessor (modeLength (some m)) s →
    load mn r m v s = .next { s.setReg r (operandValue o s) with
      pc := s.pc + BitVec.ofNat 16 (modeLength (some m)) }) ∧
  (∀ (v : Word) (s : State), v.toNat + s.x.toNat ≤ 0xFFFF → hasSuccessor 3 s →
    load .ldx .x (.mem .absx) v s =
      .next { s with x := s.mem.read (v.toNat + s.x.toNat), pc := s.pc + 3 }) ∧
  (∀ (v : Word) (s : State), v.toNat + s.y.toNat ≤ 0xFFFF → hasSuccessor 3 s →
    load .ldy .y (.mem .absy) v s =
      .next { s with y := s.mem.read (v.toNat + s.y.toNat), pc := s.pc + 3 })

/-! ### Addressing modes -/

/-- R78 to R84 (derived: the raise of absx and absy is the spec's decision D6). The modes without a
pointer, in unsigned integers. -/
def Obligations.DirectModesFollowTheirFormulas : Prop :=
  ∀ (b : Byte) (v : Word) (s : State),
    resolve .imm (zext b) s = .ok (.immediate b) ∧
    effectiveAddress .zpg (zext b) s = .ok (BitVec.ofNat 16 b.toNat) ∧
    effectiveAddress .zpgx (zext b) s = .ok (BitVec.ofNat 16 ((b.toNat + s.x.toNat) % 256)) ∧
    effectiveAddress .zpgy (zext b) s = .ok (BitVec.ofNat 16 ((b.toNat + s.y.toNat) % 256)) ∧
    effectiveAddress .abs v s = .ok v ∧
    effectiveAddress .absx v s =
      (if v.toNat + s.x.toNat ≤ 0xFFFF then .ok (BitVec.ofNat 16 (v.toNat + s.x.toNat))
       else .error .addressOutOfRange) ∧
    effectiveAddress .absy v s =
      (if v.toNat + s.y.toNat ≤ 0xFFFF then .ok (BitVec.ofNat 16 (v.toNat + s.y.toNat))
       else .error .addressOutOfRange)

/-- R85, R86 (derived: the raise of indy is the spec's decision D6). The modes through a zero-page
pointer: the index X is added to the pointer's location, Y to the pointer, and the location of the
high byte wraps inside page 0. -/
def Obligations.PointerModesFollowTheirFormulas : Prop :=
  ∀ (b : Byte) (s : State),
    (let p := (b.toNat + s.x.toNat) % 256
     effectiveAddress .indx (zext b) s =
       .ok (BitVec.ofNat 16 (256 * (s.mem.read ((p + 1) % 256)).toNat + (s.mem.read p).toNat))) ∧
    (let base := 256 * (s.mem.read ((b.toNat + 1) % 256)).toNat + (s.mem.read b.toNat).toNat
     effectiveAddress .indy (zext b) s =
       (if base + s.y.toNat ≤ 0xFFFF then .ok (BitVec.ofNat 16 (base + s.y.toNat))
        else .error .addressOutOfRange))

/-- R87 (derived: the setting `refuse`, no hardware's behaviour, is left out, log entry 5). Mode ind
under both settings of JMP_IND_PAGE_CROSS, and the setting of this machine is one of them. -/
def Obligations.IndirectJumpTarget : Prop :=
  ∀ (p : PageCross) (v : Word) (s : State),
    (v.toNat % 256 ≠ 0xFF →
      indTarget p v s = .ok (joinBytes (s.mem.read (v.toNat + 1)) (s.mem.read v.toNat))) ∧
    (v.toNat % 256 = 0xFF →
      indTarget .samePage v s = .ok (joinBytes (s.mem.read (256 * (v.toNat / 256))) (s.mem.read v.toNat)) ∧
      (v.toNat ≠ 0xFFFF →
        indTarget .carry v s = .ok (joinBytes (s.mem.read (v.toNat + 1)) (s.mem.read v.toNat))) ∧
      (v.toNat = 0xFFFF → indTarget .carry v s = .error .addressOutOfRange)) ∧
    effectiveAddress .ind v s = indTarget pageCross v s

/-- R80, R81, R85, R86, R89 and the glossary's "effective carry-free zero-page wrap" (derived). No mode
but ind looks at memory outside page 0: two states with the same X, Y and page 0 resolve every mode
alike. -/
def Obligations.PointersComeFromPageZeroOnly : Prop :=
  ∀ (m : MemMode) (v : Word) (s u : State), m ≠ .ind → s.x = u.x → s.y = u.y →
    (∀ a : Word, a.toNat < 0x0100 → s.readByte a = u.readByte a) →
    effectiveAddress m v s = effectiveAddress m v u

/-! ### Frames: what an instruction does not change -/

/-- R152, R16 (derived: that CMP alone writes a flag is the spec's decision D9, log entry 11, which
R16 marks). CMP alone writes a flag, no instruction writes V, B, D or I, and no instruction reads a
flag: with any other flags f before it, an instruction does the same to everything else; it leaves f
as it is, but for a completed CMP, which sets the same C, Z and N as before and leaves V, B, D and I
of f. -/
def Obligations.FlagsAreWrittenByCmpAndReadByNone : Prop :=
  ∀ (i : Instr) (s t : State), exec i s = .next t →
    (i.mnemonic ≠ .cmp → t.flags = s.flags) ∧
    (t.flags.v = s.flags.v ∧ t.flags.b = s.flags.b ∧ t.flags.d = s.flags.d ∧ t.flags.i = s.flags.i) ∧
    (i.mnemonic ≠ .cmp ∨ raiseCondition i s →
      ∀ f : Flags, exec i { s with flags := f } = .next { t with flags := f }) ∧
    (i.mnemonic = .cmp → ¬ raiseCondition i s →
      ∀ f : Flags, exec i { s with flags := f } =
        .next { t with flags := { t.flags with v := f.v, b := f.b, d := f.d, i := f.i } })

/-- R12, R13 (derived: the columns "written by"). The frame of the registers: each is unchanged by
every instruction but those the spec lists for it. -/
def Obligations.RegistersChangeOnlyByTheirWriters : Prop :=
  ∀ (i : Instr) (s t : State), exec i s = .next t →
    (i.mnemonic ∉ [Mnemonic.lda, .pla, .txa, .tya] → t.a = s.a) ∧
    (i.mnemonic ∉ [Mnemonic.ldx, .tax, .inx, .dex] → t.x = s.x) ∧
    (i.mnemonic ∉ [Mnemonic.ldy, .tay, .iny, .dey] → t.y = s.y) ∧
    (i.mnemonic ∉ [Mnemonic.pha, .pla, .jsr, .rts] → t.sp = s.sp)

/-- R34 (derived). The frame of memory for the forms that store nothing: every instruction but STA,
STX, STY, PHA and JSR leaves every byte as it was. -/
def Obligations.OtherInstructionsLeaveMemory : Prop :=
  ∀ (i : Instr) (s t : State), i.mnemonic ∉ [Mnemonic.sta, .stx, .sty, .pha, .jsr] →
    exec i s = .next t → ∀ a : Word, t.readByte a = s.readByte a

/-- R163, R164, R165, R35 (derived). The frame of a completed store: the byte at the address the mode
computes becomes the register, every other byte reads as before, and every register and flag is
unchanged. -/
def Obligations.StoreChangesOneByte : Prop :=
  ∀ (i : Instr) (r : Reg) (m : MemMode) (s t : State) (ea : Word),
    (i.mnemonic, r) ∈ [(Mnemonic.sta, Reg.a), (.stx, .x), (.sty, .y)] → i.mode = some (.mem m) →
    effectiveAddress m i.operand s = .ok ea → s.st = .running → exec i s = .next t → t.st = .running →
    t.readByte ea = s.getReg r ∧ (∀ a : Word, a ≠ ea → t.readByte a = s.readByte a) ∧
    t = { s with mem := t.mem, pc := t.pc }

/-- R122, R132, R35 (derived). The frame of the pushing instructions: PHA changes the one byte at
`0x0100 + SP`, JSR that byte and the one below it on the ring, and every other byte reads as before. -/
def Obligations.PushesChangeOnlyStackBytes : Prop :=
  ∀ (v : Word) (s t : State), s.st = .running → t.st = .running →
    (exec .pha s = .next t →
      t.readByte (stackAddr s.sp) = s.a ∧
      (∀ a : Word, a ≠ stackAddr s.sp → t.readByte a = s.readByte a) ∧
      t = { s with mem := t.mem, pc := t.pc, sp := s.sp - 1 }) ∧
    (exec (.jsrAbs v) s = .next t →
      t.readByte (stackAddr s.sp) = highByte (s.pc + 3) ∧
      t.readByte (stackAddr (s.sp - 1)) = lowByte (s.pc + 3) ∧
      (∀ a : Word, a ≠ stackAddr s.sp → a ≠ stackAddr (s.sp - 1) → t.readByte a = s.readByte a) ∧
      t = { s with mem := t.mem, pc := v, sp := s.sp - 2 })

/-- R13 (derived). SP shows only where pushes and pulls land: an instruction other than PHA, PLA, JSR
and RTS does the same whatever SP is. -/
def Obligations.StackPointerIsInvisible : Prop :=
  ∀ (i : Instr) (s t : State) (p : Byte), i.mnemonic ∉ [Mnemonic.pha, .pla, .jsr, .rts] →
    exec i s = .next t → exec i { s with sp := p } = .next { t with sp := p }

/-- R14, R74, R75 (derived). A completed instruction that is not JMP, JSR or RTS leaves PC at the
address after its bytes, with no wrap; a completed JMP abs or JSR at its operand, whatever its own
length. -/
def Obligations.PcAdvancesByTheLength : Prop :=
  ∀ (i : Instr) (s t : State), s.st = .running → exec i s = .next t → t.st = .running →
    (i.mnemonic ∉ [Mnemonic.jmp, .jsr, .rts] → t.pc.toNat = s.pc.toNat + instrLength i) ∧
    (i.mode = some (.mem .abs) → i.mnemonic ∈ [Mnemonic.jmp, .jsr] → t.pc = i.operand)

/-! ### Exceptions -/

/-- R184, R18 (derived: that the step of a halted state answers the fault `halted` is the model's
choice, log entry 6; the codes are R18's and R180's, decision D10). Taking an exception writes ST and
nothing else; from then on the engine makes no step and no memory access and reports `halted` = 1 and
the kind. -/
def Obligations.ExceptionHaltsTheEngine : Prop :=
  (∀ (k : Exc) (s : State), raise k s = .next { s with st := .halted k }) ∧
  ∀ (k : Exc) (s : State), s.st = .halted k →
    step s = .fault (.halted k) ∧ transactions s = [] ∧ s.st.haltedOut = true ∧
    s.st.kindOut = (match k with
      | .invalidOpcode => 1
      | .addressOutOfRange => 2)

/-- R55. The step of a running engine raises InvalidOpcode exactly when the byte at PC is one of
the 202 undefined opcodes of R55; then nothing but ST changes and no other byte is read. -/
def Obligations.UndefinedOpcodeHalts : Prop :=
  ((List.range 256).filter fun n => undefinedOpcode (BitVec.ofNat 8 n)).length = 202 ∧
  ∀ s : State, s.st = .running →
    (undefinedOpcode (s.readByte s.pc) = true ↔ step s = .next { s with st := .halted .invalidOpcode }) ∧
    (undefinedOpcode (s.readByte s.pc) = true → transactions s = [.read s.pc])

/-- R72, R185, R76 (derived: that JMP ind completes at a page end wherever condition 4 does not hold
rests on leaving out the setting `refuse`, the model's choice, log entry 5), over decoded
instructions. An instruction raises AddressOutOfRange exactly under conditions 3 to 6, changing
nothing but ST; otherwise it completes, and ST is as before. So every instruction completes wherever
the spec raises nothing. -/
def Obligations.InstructionsCompleteUnlessTheyMustRaise : Prop :=
  ∀ (i : Instr) (s : State),
    (raiseCondition i s → exec i s = raise .addressOutOfRange s) ∧
    (¬ raiseCondition i s → ∃ t, exec i s = .next t ∧ t.st = s.st)

/-- R72 (derived: conditions 2 to 6 are the spec's decisions D6 to D8; that JMP ind completes at a
page end wherever condition 4 does not hold rests on leaving out the setting `refuse`, the model's
choice, log entry 5). All six raise conditions of the step of a running engine, in their order: the
undefined opcode; the operand bytes above the top of memory; then, for the instruction the bytes
decode to, conditions 3 to 6. Where none holds the step completes with the engine running. -/
def Obligations.StepRaisesExactlyTheSixConditions : Prop :=
  ∀ s : State, s.st = .running →
    (rowOf optable (s.readByte s.pc) = none → step s = raise .invalidOpcode s) ∧
    ∀ row, rowOf optable (s.readByte s.pc) = some row →
      (0xFFFF < s.pc.toNat + row.length - 1 → step s = raise .addressOutOfRange s) ∧
      (s.pc.toNat + row.length - 1 ≤ 0xFFFF →
        ∃ i, fetchDecode s = .ok i ∧ i.mnemonic = row.mnemonic ∧ i.mode = row.mode ∧
          (row.length = 2 → i.operand.toNat = (s.mem.read (s.pc.toNat + 1)).toNat) ∧
          (row.length = 3 → i.operand.toNat =
            256 * (s.mem.read (s.pc.toNat + 2)).toNat + (s.mem.read (s.pc.toNat + 1)).toNat) ∧
          (raiseCondition i s → step s = raise .addressOutOfRange s) ∧
          (¬ raiseCondition i s → ∃ t, step s = .next t ∧ t.st = .running))

/-- R70, R184 (derived). The step stops the machine in a halted state and nowhere else, with the kind
it halted on, and it never refuses: a running engine always has a next state. That a halted state
answers a fault is the model's choice, log entry 6; that JMP ind always has a next state, log entry 5;
that nothing is refused, log entry 9. -/
def Obligations.OnlyHaltedStatesStop : Prop :=
  ∀ s : State,
    (∀ k, step s = .fault (.halted k) ↔ s.st = .halted k) ∧
    (∀ r, step s ≠ .refused r) ∧
    (s.st = .running → ∃ t, step s = .next t)

/-! ### The step -/

/-- R71, R73 (derived: that the fetch gathers three bytes whatever the length is the model's choice,
log entry 10; R57 reads only the instruction's own). When the engine runs and the bytes at PC decode
to an instruction, the step is `exec` of it; the bytes gathered are those memory holds at PC, PC+1 and
PC+2. -/
def Obligations.StepRunsTheDecodedInstruction : Prop :=
  ∀ s : State, s.st = .running →
    (∀ (i : Instr) (rest : List Byte), decode (fetchBytes s) = .ok (i, rest) → step s = exec i s) ∧
    (s.pc.toNat + 2 ≤ 0xFFFF →
      fetchBytes s =
        [s.mem.read s.pc.toNat, s.mem.read (s.pc.toNat + 1), s.mem.read (s.pc.toNat + 2)])

/-- R45, R57, R71 (derived). When memory holds the encoding of an instruction at PC, the step runs that
instruction, also when its last byte is at the top of memory. -/
def Obligations.StepRunsTheEncodedInstruction : Prop :=
  ∀ (s : State) (i : Instr) (bytes : List Byte), s.st = .running → encode i = some bytes →
    s.pc.toNat + bytes.length ≤ 0x10000 →
    (∀ k b, bytes[k]? = some b → s.mem.read (s.pc.toNat + k) = b) →
    step s = exec i s

/-- R45, R215 (derived). A store is seen by the very next fetch: STA abs to the address after itself,
with a one-byte opcode in A, and the step after it runs that instruction. -/
def Obligations.StoredOpcodeRunsNext : Prop :=
  ∀ (s : State) (j : Instr), s.st = .running → hasSuccessor 3 s →
    fetchDecode s = .ok (.staAbs (s.pc + 3)) → encode j = some [s.a] →
    ∃ t, step s = .next t ∧ t.pc = s.pc + 3 ∧ step t = exec j t

/-- R217 (derived: the parked half). A parked engine stays where it is: the step is the identity. -/
def Obligations.ParkedStateIsFixed : Prop :=
  ∀ s : State, Parked s → step s = .next s

/-! ### Memory -/

/-- R35, R41 (a) (derived). A read of an address returns the byte of the latest write to it, or what it
held before if there was none, after any sequence of writes. -/
def Obligations.ReadReturnsLatestWrite : Prop :=
  ∀ (ws : List (Word × Byte)) (s : State) (a : Word),
    (ws.foldl (fun u w => u.writeByte w.1 w.2) s).readByte a =
      match ws.reverse.find? (fun w => w.1 == a) with
      | some w => w.2
      | none => s.readByte a

/-- The canonical form of memory (derived, the model's own representation, log entry 1): two memories
in canonical form that read alike at every address are equal. -/
def Obligations.CanonicalMemoriesReadingAlikeAreEqual : Prop :=
  ∀ m₁ m₂ : Memory, m₁.wf = true → m₂.wf = true →
    (∀ a : Word, m₁.read a.toNat = m₂.read a.toNat) → m₁ = m₂

/-- R41, R46, R91 (derived). The transactions of a step account for all it does to memory: applied in
their order they turn the memory before the step into the memory after it. -/
def Obligations.TransactionsAccountForMemory : Prop :=
  ∀ s t : State, step s = .next t →
    t.mem = (transactions s).foldl (fun m x => x.apply m) s.mem

/-- R91 (derived: its stages for four instructions; the order of the two pointer bytes is the spec's
decision D13, and that the transactions are computed from the state is the model's choice, log entry
12). The order of the transactions of JSR, RTS, LDA indx and STA indy when they complete. -/
def Obligations.TransactionOrder : Prop :=
  ∀ (s : State) (v : Word) (b : Byte), s.st = .running →
    (fetchDecode s = .ok (.jsrAbs v) → hasSuccessor 3 s →
      transactions s =
        [.read s.pc, .read (s.pc + 1), .read (s.pc + 2),
         .write (stackAddr s.sp) (highByte (s.pc + 3)),
         .write (stackAddr (s.sp - 1)) (lowByte (s.pc + 3))]) ∧
    (fetchDecode s = .ok .rts →
      transactions s = [.read s.pc, .read (stackAddr (s.sp + 1)), .read (stackAddr (s.sp + 2))]) ∧
    (fetchDecode s = .ok (.ldaIndx b) → hasSuccessor 2 s →
      transactions s =
        [.read s.pc, .read (s.pc + 1), .read (zext (b + s.x)), .read (zext (b + s.x + 1)),
         .read (joinBytes (s.readByte (zext (b + s.x + 1))) (s.readByte (zext (b + s.x))))]) ∧
    (∀ ea, fetchDecode s = .ok (.staIndy b) → effectiveAddress .indy (zext b) s = .ok ea →
      hasSuccessor 2 s →
      transactions s =
        [.read s.pc, .read (s.pc + 1), .read (zext b), .read (zext (b + 1)), .write ea s.a])

/-! ### Reset and the invariant -/

/-- R210, R211 (derived: the address of the vector is the spec's decision D3, log entry 3). The reset
event, in any state, running or halted: the flags false, SP = 0xFF, PC from the two bytes at 0xFFFC
and 0xFFFD, ST running, memory unchanged, A, X and Y any values. -/
def Obligations.ResetEventSetsTheState : Prop :=
  ∀ (a x y : Byte) (s : State),
    applyReset a x y s =
      { a := a, x := x, y := y, sp := 0xFF
        pc := joinBytes (s.mem.read 0xFFFD) (s.mem.read 0xFFFC)
        flags := { n := false, v := false, b := false, d := false, i := false, z := false, c := false }
        st := .running, mem := s.mem }

/-- R211 (derived). The vector bytes are ordinary memory: a program that overwrites one changes where
the next reset starts, and no register, flag or status after it. -/
def Obligations.OverwrittenVectorMovesTheNextStart : Prop :=
  ∀ (a x y lo : Byte) (s : State),
    applyReset a x y (s.writeByte 0xFFFC lo) =
      { applyReset a x y s with
        pc := joinBytes (s.readByte 0xFFFD) lo, mem := (s.writeByte 0xFFFC lo).mem }

/-- R21 (derived; the values of A, X and Y and of the empty memory are the model's choice, log entries
1 and 2). `State.reset` is the reset event applied to an engine with nothing in its memory, so its
PC is 0. -/
def Obligations.StateResetIsResetOfEmptyMemory : Prop :=
  State.reset = launch 0 0 0 Memory.empty ∧ State.reset.pc = 0 ∧ State.reset.sp = 0xFF ∧
  State.reset.flags = Flags.clear ∧ State.reset.st = .running ∧
  ∀ a : Word, State.reset.readByte a = 0

/-- The invariant at reset (derived; R16, R21): it holds at `State.reset`, after a launch on any image
in canonical form, and after any later reset. -/
def Obligations.ResetEstablishesInvariant : Prop :=
  EngineInv State.reset ∧
  (∀ (a x y : Byte) (image : Memory), image.wf = true → EngineInv (launch a x y image)) ∧
  (∀ (a x y : Byte) (s : State), s.mem.wf = true → EngineInv (applyReset a x y s))

/-- R16 (derived), from every state and not only from reset: a step keeps the invariant, the
canonical form of memory and V = B = D = I = false. -/
def Obligations.StepKeepsInvariant : Prop :=
  ∀ s t : State, EngineInv s → step s = .next t → EngineInv t

/-- R16 (derived). At every moment of every run, on any memory image and with resets at any time, V,
B, D and I are false and memory is in canonical form. -/
def Obligations.EveryReachableStateKeepsInvariant : Prop :=
  ∀ s : State, Reachable s → EngineInv s

/-- R46, R210 (derived: the address of the vector is the spec's decision D3, log entry 3). The
transactions of reset are two reads, 0xFFFC and then 0xFFFD; they leave memory as it was, and nothing
but the bytes they read decides the registers, flags and status after it. -/
def Obligations.ResetReadsItsVector : Prop :=
  resetTransactions = [.read 0xFFFC, .read 0xFFFD] ∧
  ∀ (a x y : Byte) (s u : State),
    (applyReset a x y s).mem = resetTransactions.foldl (fun m t => t.apply m) s.mem ∧
    ((∀ addr : Word, Transaction.read addr ∈ resetTransactions → s.readByte addr = u.readByte addr) →
      applyReset a x y s = { applyReset a x y u with mem := s.mem })

/-! ### The opcode table as a parameter -/

/-- R56 (derived: the lengths of (b) are R53's, the spec's decision D15). The construction of an engine
accepts exactly the rows with (a) distinct opcode bytes, (b) their modes' lengths and (c) pairs of the
spec's list; it names what it refuses, before any step; OPTABLE is accepted and uses 54 of the 75
pairs. -/
def Obligations.TablesAreRefusedAtConstruction : Prop :=
  (∀ rows : List OpRow,
    ((∃ f, buildEngine rows = .ok f) ↔
      rows.Pairwise (fun r q => r.opcode ≠ q.opcode) ∧
      (∀ r ∈ rows, r.length = modeLength r.mode) ∧
      (∀ r ∈ rows, r.mode ∈ admissibleModes r.mnemonic)) ∧
    (buildEngine rows = .error .duplicateOpcode → ¬ rows.Pairwise fun r q => r.opcode ≠ q.opcode) ∧
    (buildEngine rows = .error .wrongLength → ∃ r ∈ rows, r.length ≠ modeLength r.mode) ∧
    (buildEngine rows = .error .inadmissiblePair → ∃ r ∈ rows, r.mode ∉ admissibleModes r.mnemonic)) ∧
  (∃ f, buildEngine optable = .ok f) ∧
  (optable.map fun r => (r.mnemonic, r.mode)).eraseDups.length = 54 ∧
  (allMnemonics.flatMap admissibleModes).length = 75

/-- R56, R57, R73 (derived: that a table with JMP ind always has a next state rests on leaving out the
setting `refuse`, the model's choice, log entry 5, and that nothing is refused on log entry 9). An
engine built from any rows never refuses: running, it always has a next state, and it runs the
mnemonic, mode and operand of the row whose opcode stands at PC, also of a pair that OPTABLE has not.
-/
def Obligations.BuiltEnginesRunEveryRow : Prop :=
  ∀ (rows : List OpRow) (f : State → Result) (s : State), buildEngine rows = .ok f → s.st = .running →
    (∃ t, f s = .next t) ∧
    ∀ row ∈ rows, s.readByte s.pc = row.opcode → s.pc.toNat + row.length - 1 ≤ 0xFFFF →
      ∃ v : Word, f s = execDecoded ⟨row.mnemonic, row.mode, v⟩ s ∧
        (row.length = 1 → v = 0) ∧
        (row.length = 2 → v.toNat = (s.mem.read (s.pc.toNat + 1)).toNat) ∧
        (row.length = 3 → v.toNat =
          256 * (s.mem.read (s.pc.toNat + 2)).toNat + (s.mem.read (s.pc.toNat + 1)).toNat)

/-- R56 with R150 and R160 to R165 (derived: no flag but by CMP is decision D9, the raises D6 and D7).
CMP, the loads and the stores have their meaning in every mode R56 admits, also where R54 gives no
opcode: the result where the mode resolves and the successor exists, the raise elsewhere. -/
def Obligations.EveryAdmissiblePairHasItsMeaning : Prop :=
  (∀ (mn : Mnemonic) (r : Reg) (m : Mode) (v : Word) (s : State),
    (mn, r) ∈ [(Mnemonic.lda, Reg.a), (.ldx, .x), (.ldy, .y)] → some m ∈ admissibleModes mn →
    (∀ o, resolve m v s = .ok o → hasSuccessor (modeLength (some m)) s →
      execDecoded ⟨mn, some m, v⟩ s = .next { s.setReg r (operandValue o s) with
        pc := s.pc + BitVec.ofNat 16 (modeLength (some m)) }) ∧
    (∀ o, resolve m v s = .ok o → ¬ hasSuccessor (modeLength (some m)) s →
      execDecoded ⟨mn, some m, v⟩ s = raise .addressOutOfRange s) ∧
    (∀ k, resolve m v s = .error k → execDecoded ⟨mn, some m, v⟩ s = raise k s)) ∧
  (∀ (mn : Mnemonic) (r : Reg) (m : MemMode) (v : Word) (s : State),
    (mn, r) ∈ [(Mnemonic.sta, Reg.a), (.stx, .x), (.sty, .y)] → some (.mem m) ∈ admissibleModes mn →
    (∀ ea, effectiveAddress m v s = .ok ea → hasSuccessor (modeLength (some (.mem m))) s →
      execDecoded ⟨mn, some (.mem m), v⟩ s = .next { s with
        mem := s.mem.write ea.toNat (s.getReg r)
        pc := s.pc + BitVec.ofNat 16 (modeLength (some (.mem m))) }) ∧
    (∀ ea, effectiveAddress m v s = .ok ea → ¬ hasSuccessor (modeLength (some (.mem m))) s →
      execDecoded ⟨mn, some (.mem m), v⟩ s = raise .addressOutOfRange s) ∧
    (∀ k, effectiveAddress m v s = .error k → execDecoded ⟨mn, some (.mem m), v⟩ s = raise k s)) ∧
  (∀ (m : Mode) (v : Word) (s : State), some m ∈ admissibleModes .cmp →
    (∀ o, resolve m v s = .ok o → hasSuccessor (modeLength (some m)) s →
      execDecoded ⟨.cmp, some m, v⟩ s = .next { s with
        flags := { s.flags with
          c := decide ((operandValue o s).toNat ≤ s.a.toNat)
          z := decide (s.a.toNat = (operandValue o s).toNat)
          n := decide (0x80 ≤ s.a.toNat) }
        pc := s.pc + BitVec.ofNat 16 (modeLength (some m)) }) ∧
    (∀ o, resolve m v s = .ok o → ¬ hasSuccessor (modeLength (some m)) s →
      execDecoded ⟨.cmp, some m, v⟩ s = raise .addressOutOfRange s) ∧
    (∀ k, resolve m v s = .error k → execDecoded ⟨.cmp, some m, v⟩ s = raise k s))

/-- R73, R60 (derived). An instruction does what the handler of its mnemonic does with its mode and
operand. -/
def Obligations.ExecIsTheHandlerOfItsMnemonic : Prop :=
  ∀ (i : Instr) (s : State), exec i s = execDecoded i.decoded s

/-- R54, R56, R71 (derived). The machine is the engine built from OPTABLE. -/
def Obligations.MachineIsBuiltFromOptable : Prop :=
  ∃ f, buildEngine optable = .ok f ∧ ∀ s : State, f s = step s

/-- R91, R34, R36 (derived: the order of the two pointer bytes is the spec's decision D13; that the
transactions are computed from the state is the model's choice, log entry 12; JMP ind at a page end
leaves out `refuse`, log entry 5). The transactions of every decoded instruction, in the order of
R91's stages: opcode, operand bytes, pointer bytes, data or stack reads, writes; an instruction that
raises makes none of the last two. -/
def Obligations.TransactionsOfEveryInstruction : Prop :=
  ∀ (s : State) (i : Instr), s.st = .running → fetchDecode s = .ok i →
    ∃ operands pointer reads writes : List Transaction,
      transactions s = .read s.pc :: (operands ++ pointer ++ reads ++ writes) ∧
      (instrLength i = 1 → operands = []) ∧
      (instrLength i = 2 → operands = [.read (s.pc + 1)]) ∧
      (instrLength i = 3 → operands = [.read (s.pc + 1), .read (s.pc + 2)]) ∧
      (i.mode ∉ [some (.mem .indx), some (.mem .indy), some (.mem .ind)] → pointer = []) ∧
      (i.mode = some (.mem .indx) → pointer =
        [.read (BitVec.ofNat 16 ((i.operand.toNat + s.x.toNat) % 256)),
         .read (BitVec.ofNat 16 ((i.operand.toNat + s.x.toNat + 1) % 256))]) ∧
      (i.mode = some (.mem .indy) → pointer =
        [.read i.operand, .read (BitVec.ofNat 16 ((i.operand.toNat + 1) % 256))]) ∧
      (i.mode = some (.mem .ind) →
        (i.operand.toNat % 256 ≠ 0xFF → pointer = [.read i.operand, .read (i.operand + 1)]) ∧
        (i.operand.toNat % 256 = 0xFF → pointer = match pageCross with
          | .samePage => [.read i.operand, .read (i.operand - 0xFF)]
          | .carry => if i.operand = 0xFFFF then [.read i.operand]
            else [.read i.operand, .read (i.operand + 1)])) ∧
      (raiseCondition i s → reads = [] ∧ writes = []) ∧
      (¬ raiseCondition i s →
        (i.mnemonic ∈ [Mnemonic.lda, .ldx, .ldy, .cmp] →
          (i.mode = some .imm → reads = []) ∧
          (∀ m ea, i.mode = some (.mem m) → effectiveAddress m i.operand s = .ok ea →
            reads = [.read ea])) ∧
        (i.mnemonic = .pla → reads = [.read (stackAddr (s.sp + 1))]) ∧
        (i.mnemonic = .rts → reads = [.read (stackAddr (s.sp + 1)), .read (stackAddr (s.sp + 2))]) ∧
        (i.mnemonic ∉ [Mnemonic.lda, .ldx, .ldy, .cmp, .pla, .rts] → reads = []) ∧
        (∀ r m ea, (i.mnemonic, r) ∈ [(Mnemonic.sta, Reg.a), (.stx, .x), (.sty, .y)] →
          i.mode = some (.mem m) → effectiveAddress m i.operand s = .ok ea →
          writes = [.write ea (s.getReg r)]) ∧
        (i.mnemonic = .pha → writes = [.write (stackAddr s.sp) s.a]) ∧
        (i.mnemonic = .jsr → writes =
          [.write (stackAddr s.sp) (highByte (s.pc + 3)),
           .write (stackAddr (s.sp - 1)) (lowByte (s.pc + 3))]) ∧
        (i.mnemonic ∉ [Mnemonic.sta, .stx, .sty, .pha, .jsr] → writes = []))

/-- R46, R35 (derived; the transactions and the replies are computed from the state, the model's
choice, log entry 12). Memory answers a read with the byte it holds and a write with nothing; in a
step every read is answered from memory as it was before the step; and the replies are all the step
learns of memory: over another memory that gives the same replies it makes the same transactions and
has the same next state, but for memory, to which the same writes are applied. -/
def Obligations.EngineSeesMemoryThroughReplies : Prop :=
  (∀ (m : Memory) (a : Word) (b : Byte),
    (Transaction.read a).reply m = some (m.read a.toNat) ∧ (Transaction.write a b).reply m = none) ∧
  (∀ (s : State) (m : Memory), replies m (transactions s) = (transactions s).map fun t => t.reply m) ∧
  (∀ (a x y : Byte) (s : State), ∃ lo hi : Byte,
    replies s.mem resetTransactions = [some lo, some hi] ∧ (applyReset a x y s).pc = joinBytes hi lo) ∧
  ∀ (s : State) (m : Memory), replies m (transactions s) = replies s.mem (transactions s) →
    transactions { s with mem := m } = transactions s ∧
    ∀ t, step s = .next t →
      step { s with mem := m } =
        .next { t with mem := (transactions s).foldl (fun m x => x.apply m) m }
end

