-- ==== Sys2Proof/Laws/Memory.lean ====
section
/-! SUPPORT. Laws of memory: what a read gives after a write, and that every operation keeps the
canonical form. -/

namespace Sys2Proof.Machine

theorem readCells_dropCell (a a' : Nat) (l : List Host.Cell) :
    readCells a' (dropCell a l) = if a = a' then unlistedByte else readCells a' l := by
  induction l with
  | nil => simp [dropCell, readCells]
  | cons c t ih =>
    obtain ⟨k, b⟩ := c
    by_cases hk : k = a <;> by_cases ha : a = a' <;> simp_all [dropCell, readCells]

theorem readCells_insertCell_other {a a' : Nat} (h : a ≠ a') (b : Byte) (l : List Host.Cell) :
    readCells a' (insertCell a b l) = readCells a' l := by
  induction l with
  | nil => simp [insertCell, readCells, h]
  | cons c t ih =>
    obtain ⟨k, c⟩ := c
    by_cases hlt : a < k
    · simp [insertCell, hlt, readCells, h]
    · simp [insertCell, hlt, readCells, ih]

theorem readCells_insertCell_same (a : Nat) (b : Byte) (l : List Host.Cell) :
    readCells a (insertCell a b (dropCell a l)) = b := by
  induction l with
  | nil => simp [dropCell, insertCell, readCells]
  | cons c t ih =>
    obtain ⟨k, c⟩ := c
    by_cases hk : k = a
    · simpa only [dropCell, hk, if_true] using ih
    · by_cases hlt : a < k
      · simp [dropCell, hk, insertCell, hlt, readCells]
      · simpa [dropCell, hk, insertCell, hlt, readCells] using ih

/-- A read after a write: the byte written at its address, what was there elsewhere. It needs no
canonical form. -/
theorem Memory.read_write (m : Memory) (a a' : Nat) (b : Byte) :
    (m.write a b).read a' = if a = a' then b else m.read a' := by
  have hd := readCells_dropCell a a' m.cells
  unfold Memory.write Memory.read
  by_cases hb : b = unlistedByte
  · simp [hb, hd]
  · by_cases ha : a = a'
    · subst ha
      simp [hb, readCells_insertCell_same]
    · simp [hb, ha, readCells_insertCell_other ha, hd]

@[simp] theorem Memory.read_write_same (m : Memory) (a : Nat) (b : Byte) :
    (m.write a b).read a = b := by simp [Memory.read_write]

theorem Memory.read_write_other (m : Memory) {a a' : Nat} (b : Byte) (h : a ≠ a') :
    (m.write a b).read a' = m.read a' := by simp [Memory.read_write, h]

@[simp] theorem Memory.read_empty (a : Nat) : Memory.empty.read a = unlistedByte := rfl

theorem cellsFrom_mono {lo lo' : Nat} {l : List Host.Cell} (h : lo' ≤ lo)
    (hl : cellsFrom lo l = true) : cellsFrom lo' l = true := by
  cases l with
  | nil => rfl
  | cons c t =>
    obtain ⟨k, b⟩ := c
    simp only [cellsFrom, Bool.and_eq_true, decide_eq_true_eq] at hl ⊢
    exact ⟨⟨⟨by omega, hl.1.1.2⟩, hl.1.2⟩, hl.2⟩

theorem cellsFrom_dropCell (a : Nat) {lo : Nat} {l : List Host.Cell}
    (hl : cellsFrom lo l = true) : cellsFrom lo (dropCell a l) = true := by
  induction l generalizing lo with
  | nil => exact hl
  | cons c t ih =>
    obtain ⟨k, b⟩ := c
    simp only [cellsFrom, Bool.and_eq_true, decide_eq_true_eq] at hl
    by_cases hk : k = a
    · simp only [dropCell, hk, if_true]
      exact cellsFrom_mono (by omega) (ih hl.2)
    · simp only [dropCell, hk, if_false, cellsFrom, Bool.and_eq_true, decide_eq_true_eq]
      exact ⟨hl.1, ih hl.2⟩

theorem cellsFrom_insertCell {a : Nat} {b : Byte} (ha : a < addressCount) (hb : b ≠ unlistedByte)
    {lo : Nat} (hlo : lo ≤ a) {l : List Host.Cell} (hl : cellsFrom lo (dropCell a l) = true) :
    cellsFrom lo (insertCell a b (dropCell a l)) = true := by
  induction l generalizing lo with
  | nil => simp [dropCell, insertCell, cellsFrom, ha, hb, hlo]
  | cons c t ih =>
    obtain ⟨k, b'⟩ := c
    by_cases hk : k = a
    · simp only [dropCell, hk, if_true] at hl ⊢
      exact ih hlo hl
    · simp only [dropCell, hk, if_false, cellsFrom, Bool.and_eq_true, decide_eq_true_eq] at hl
      by_cases hlt : a < k
      · simp only [dropCell, hk, if_false, insertCell, hlt, if_true, cellsFrom, Bool.and_eq_true,
          decide_eq_true_eq, bne_iff_ne, ne_eq]
        exact ⟨⟨⟨hlo, ha⟩, hb⟩, ⟨⟨by omega, hl.1.1.2⟩, by simpa using hl.1.2⟩, hl.2⟩
      · simp only [dropCell, hk, if_false, insertCell, hlt, cellsFrom, Bool.and_eq_true,
          decide_eq_true_eq]
        exact ⟨hl.1, ih (by omega) hl.2⟩

@[simp] theorem Memory.empty_wf : Memory.empty.wf = true := rfl

/-- A write inside the address space keeps the canonical form. -/
theorem Memory.write_wf {m : Memory} (hm : m.wf = true) {a : Nat} (ha : a < addressCount) (b : Byte) :
    (m.write a b).wf = true := by
  have hd : cellsFrom 0 (dropCell a m.cells) = true := cellsFrom_dropCell a hm
  unfold Memory.write Memory.wf
  by_cases hb : b = unlistedByte
  · simpa [hb] using hd
  · simpa [hb] using cellsFrom_insertCell ha hb (Nat.zero_le a) hd

/-- A write at a 16-bit address keeps the canonical form. -/
theorem Memory.write_word_wf {m : Memory} (hm : m.wf = true) (a : Word) (b : Byte) :
    (m.write a.toNat b).wf = true := Memory.write_wf hm a.isLt b

/-- Writing a list of bytes keeps the canonical form. -/
theorem Memory.writeList_wf {m : Memory} (hm : m.wf = true) (a : Nat) (bs : List Byte) :
    (m.writeList a bs).wf = true := by
  induction bs generalizing m a with
  | nil => exact hm
  | cons b t ih =>
    unfold Memory.writeList
    split
    · exact ih (Memory.write_wf hm ‹_› b) (a + 1)
    · exact hm

end Sys2Proof.Machine
end

