-- ==== Sys2Proof/Laws/Bus.lean ====
section
/-! SUPPORT. Transactions and what memory answers to them. -/

namespace Sys2Proof.Machine

@[simp] theorem apply_read (a : Word) (m : Memory) : (Transaction.read a).apply m = m := rfl
@[simp] theorem apply_write (a : Word) (b : Byte) (m : Memory) :
    (Transaction.write a b).apply m = m.write a.toNat b := rfl
@[simp] theorem reply_read (a : Word) (m : Memory) :
    (Transaction.read a).reply m = some (m.read a.toNat) := rfl
@[simp] theorem reply_write (a : Word) (b : Byte) (m : Memory) :
    (Transaction.write a b).reply m = none := rfl
@[simp] theorem replies_nil (m : Memory) : replies m [] = [] := rfl
@[simp] theorem replies_cons (m : Memory) (t : Transaction) (l : List Transaction) :
    replies m (t :: l) = t.reply m :: replies (t.apply m) l := rfl

theorem transactions_running {s : State} (h : s.st = .running) :
    transactions s =
      match fetchDecode s with
      | .error _ => opcodeAccess s
      | .ok i =>
        opcodeAccess s ++ operandAccess (instrLength i) s ++ pointerAccess i.mode i.operand s
          ++ (match raisedBy i s with
              | some _ => []
              | none => dataAccess i s ++ writeAccess i s) := by
  cases s
  cases h
  rfl

/-- Reads before anything else are all answered from the memory at the start. -/
theorem replies_reads_append {l : List Transaction} (hl : ∀ t ∈ l, ∃ a, t = .read a) (m : Memory)
    (rest : List Transaction) : replies m (l ++ rest) = l.map (·.reply m) ++ replies m rest := by
  induction l with
  | nil => rfl
  | cons t l ih =>
    obtain ⟨a, rfl⟩ := hl t (List.mem_cons_self ..)
    simp [ih fun t ht => hl t (List.mem_cons_of_mem _ ht)]

/-- Writes are not answered. -/
theorem replies_writes {l : List Transaction} (hl : ∀ t ∈ l, ∃ a b, t = .write a b) (m : Memory) :
    replies m l = l.map (·.reply m) := by
  induction l generalizing m with
  | nil => rfl
  | cons t l ih =>
    obtain ⟨a, b, rfl⟩ := hl t (List.mem_cons_self ..)
    have hr := fun t ht => hl t (List.mem_cons_of_mem _ ht)
    have hsame : ∀ m', l.map (·.reply m') = l.map (·.reply m) := fun m' => List.map_congr_left fun t ht => by
      obtain ⟨a, b, rfl⟩ := hr t ht
      rfl
    simp [ih hr, hsame]

/-- The reads of a step come before its writes. -/
theorem transactions_reads_writes (s : State) :
    ∃ reads writes, transactions s = reads ++ writes ∧ (∀ t ∈ reads, ∃ a, t = .read a) ∧
      ∀ t ∈ writes, ∃ a b, t = .write a b := by
  have hop : ∀ len, ∀ t ∈ operandAccess len s, ∃ a, t = .read a := by
    intro len t; unfold operandAccess; split <;> simp +contextual [or_imp]
  have hptr : ∀ mode v, ∀ t ∈ pointerAccess mode v s, ∃ a, t = .read a := by
    intro mode v t
    unfold pointerAccess
    split <;> (try split) <;> simp +contextual [or_imp]
  have hdata : ∀ i, ∀ t ∈ dataAccess i s, ∃ a, t = .read a := by
    intro i t
    unfold dataAccess
    split <;> (try split) <;> simp +contextual [or_imp]
  have hwrite : ∀ i, ∀ t ∈ writeAccess i s, ∃ a b, t = .write a b := by
    intro i t
    unfold writeAccess storeAccess
    split <;> (try split) <;> simp +contextual [or_imp]
  unfold transactions
  split
  · exact ⟨[], [], rfl, by simp, by simp⟩
  · split
    · exact ⟨opcodeAccess s, [], by simp, by simp [opcodeAccess], by simp⟩
    · rename_i i _
      have hpre : ∀ t ∈ opcodeAccess s ++ operandAccess (instrLength i) s ++
          pointerAccess i.mode i.operand s, ∃ a, t = .read a := by
        intro t ht
        simp only [List.mem_append, opcodeAccess, List.mem_singleton] at ht
        rcases ht with (rfl | ht) | ht
        · exact ⟨_, rfl⟩
        · exact hop _ t ht
        · exact hptr _ _ t ht
      split
      · exact ⟨_, [], rfl, hpre, by simp⟩
      · refine ⟨_ ++ dataAccess i s, writeAccess i s, (List.append_assoc ..).symm, ?_, hwrite i⟩
        intro t ht
        rcases List.mem_append.mp ht with ht | ht
        · exact hpre t ht
        · exact hdata i t ht

end Sys2Proof.Machine
end

