-- ==== Sys2Proof/Laws/PerInstr.lean ====
section
/-! SUPPORT. The per-instruction family `Rebuild`: an instruction is given back by its mnemonic, mode
and operand, and its operand by its operand bytes. It is what the decoder and the encoder share. -/

namespace Sys2Proof.Laws.Rebuild

open Sys2Proof.Machine

/-- The (mnemonic, mode, operand) triple of an instruction determines it, its row's length is one of
1, 2 and 3, and its operand is what its operand bytes give back, whatever follows them. -/
def Statement (i : Instr) : Prop :=
  instrOf i.mnemonic i.mode i.operand = some i ∧
  admissible i.mnemonic i.mode = true ∧
  ∀ (row : OpRow) (rest : List Byte), row.length = instrLength i →
    takeOperand row (operandBytes row.length i.operand ++ rest) = .ok (i.operand, rest)

theorem of_implied {i : Instr} (hb : instrOf i.mnemonic i.mode i.operand = some i)
    (ha : admissible i.mnemonic i.mode = true) (hl : instrLength i = 1) (hv : i.operand = 0) :
    Statement i :=
  ⟨hb, ha, fun row rest h => by simp only [takeOperand, operandBytes, h, hl, hv, List.nil_append]⟩

theorem of_byte {i : Instr} (hb : instrOf i.mnemonic i.mode i.operand = some i)
    (ha : admissible i.mnemonic i.mode = true) (hl : instrLength i = 2) {b : Byte}
    (hv : i.operand = zext b) : Statement i :=
  ⟨hb, ha, fun row rest h => by
    simp only [takeOperand, operandBytes, h, hl, hv, lowByte_zext, List.cons_append, List.nil_append]⟩

theorem of_word {i : Instr} (hb : instrOf i.mnemonic i.mode i.operand = some i)
    (ha : admissible i.mnemonic i.mode = true) (hl : instrLength i = 3) : Statement i :=
  ⟨hb, ha, fun row rest h => by
    simp only [takeOperand, operandBytes, h, hl, joinBytes_halves, List.cons_append, List.nil_append]⟩

theorem nop : Statement .nop := of_implied rfl rfl rfl rfl
theorem tax : Statement .tax := of_implied rfl rfl rfl rfl
theorem txa : Statement .txa := of_implied rfl rfl rfl rfl
theorem tay : Statement .tay := of_implied rfl rfl rfl rfl
theorem tya : Statement .tya := of_implied rfl rfl rfl rfl
theorem inx : Statement .inx := of_implied rfl rfl rfl rfl
theorem dex : Statement .dex := of_implied rfl rfl rfl rfl
theorem iny : Statement .iny := of_implied rfl rfl rfl rfl
theorem dey : Statement .dey := of_implied rfl rfl rfl rfl
theorem pha : Statement .pha := of_implied rfl rfl rfl rfl
theorem pla : Statement .pla := of_implied rfl rfl rfl rfl
theorem jmpAbs (v : Word) : Statement (.jmpAbs v) := of_word rfl rfl rfl
theorem jmpInd (v : Word) : Statement (.jmpInd v) := of_word rfl rfl rfl
theorem jsrAbs (v : Word) : Statement (.jsrAbs v) := of_word rfl rfl rfl
theorem rts : Statement .rts := of_implied rfl rfl rfl rfl
theorem cmpImm (b : Byte) : Statement (.cmpImm b) :=
  of_byte (congrArg (fun x => some (Instr.cmpImm x)) (lowByte_zext b)) rfl rfl rfl
theorem cmpZpg (b : Byte) : Statement (.cmpZpg b) :=
  of_byte (congrArg (fun x => some (Instr.cmpZpg x)) (lowByte_zext b)) rfl rfl rfl
theorem cmpZpgx (b : Byte) : Statement (.cmpZpgx b) :=
  of_byte (congrArg (fun x => some (Instr.cmpZpgx x)) (lowByte_zext b)) rfl rfl rfl
theorem cmpAbs (v : Word) : Statement (.cmpAbs v) := of_word rfl rfl rfl
theorem cmpAbsx (v : Word) : Statement (.cmpAbsx v) := of_word rfl rfl rfl
theorem cmpAbsy (v : Word) : Statement (.cmpAbsy v) := of_word rfl rfl rfl
theorem cmpIndx (b : Byte) : Statement (.cmpIndx b) :=
  of_byte (congrArg (fun x => some (Instr.cmpIndx x)) (lowByte_zext b)) rfl rfl rfl
theorem cmpIndy (b : Byte) : Statement (.cmpIndy b) :=
  of_byte (congrArg (fun x => some (Instr.cmpIndy x)) (lowByte_zext b)) rfl rfl rfl
theorem ldaImm (b : Byte) : Statement (.ldaImm b) :=
  of_byte (congrArg (fun x => some (Instr.ldaImm x)) (lowByte_zext b)) rfl rfl rfl
theorem ldaZpg (b : Byte) : Statement (.ldaZpg b) :=
  of_byte (congrArg (fun x => some (Instr.ldaZpg x)) (lowByte_zext b)) rfl rfl rfl
theorem ldaZpgx (b : Byte) : Statement (.ldaZpgx b) :=
  of_byte (congrArg (fun x => some (Instr.ldaZpgx x)) (lowByte_zext b)) rfl rfl rfl
theorem ldaAbs (v : Word) : Statement (.ldaAbs v) := of_word rfl rfl rfl
theorem ldaAbsx (v : Word) : Statement (.ldaAbsx v) := of_word rfl rfl rfl
theorem ldaAbsy (v : Word) : Statement (.ldaAbsy v) := of_word rfl rfl rfl
theorem ldaIndx (b : Byte) : Statement (.ldaIndx b) :=
  of_byte (congrArg (fun x => some (Instr.ldaIndx x)) (lowByte_zext b)) rfl rfl rfl
theorem ldaIndy (b : Byte) : Statement (.ldaIndy b) :=
  of_byte (congrArg (fun x => some (Instr.ldaIndy x)) (lowByte_zext b)) rfl rfl rfl
theorem ldxImm (b : Byte) : Statement (.ldxImm b) :=
  of_byte (congrArg (fun x => some (Instr.ldxImm x)) (lowByte_zext b)) rfl rfl rfl
theorem ldxZpg (b : Byte) : Statement (.ldxZpg b) :=
  of_byte (congrArg (fun x => some (Instr.ldxZpg x)) (lowByte_zext b)) rfl rfl rfl
theorem ldxZpgy (b : Byte) : Statement (.ldxZpgy b) :=
  of_byte (congrArg (fun x => some (Instr.ldxZpgy x)) (lowByte_zext b)) rfl rfl rfl
theorem ldxAbs (v : Word) : Statement (.ldxAbs v) := of_word rfl rfl rfl
theorem ldxAbsy (v : Word) : Statement (.ldxAbsy v) := of_word rfl rfl rfl
theorem ldyImm (b : Byte) : Statement (.ldyImm b) :=
  of_byte (congrArg (fun x => some (Instr.ldyImm x)) (lowByte_zext b)) rfl rfl rfl
theorem ldyZpg (b : Byte) : Statement (.ldyZpg b) :=
  of_byte (congrArg (fun x => some (Instr.ldyZpg x)) (lowByte_zext b)) rfl rfl rfl
theorem ldyZpgx (b : Byte) : Statement (.ldyZpgx b) :=
  of_byte (congrArg (fun x => some (Instr.ldyZpgx x)) (lowByte_zext b)) rfl rfl rfl
theorem ldyAbs (v : Word) : Statement (.ldyAbs v) := of_word rfl rfl rfl
theorem ldyAbsx (v : Word) : Statement (.ldyAbsx v) := of_word rfl rfl rfl
theorem staZpg (b : Byte) : Statement (.staZpg b) :=
  of_byte (congrArg (fun x => some (Instr.staZpg x)) (lowByte_zext b)) rfl rfl rfl
theorem staZpgx (b : Byte) : Statement (.staZpgx b) :=
  of_byte (congrArg (fun x => some (Instr.staZpgx x)) (lowByte_zext b)) rfl rfl rfl
theorem staAbs (v : Word) : Statement (.staAbs v) := of_word rfl rfl rfl
theorem staAbsx (v : Word) : Statement (.staAbsx v) := of_word rfl rfl rfl
theorem staAbsy (v : Word) : Statement (.staAbsy v) := of_word rfl rfl rfl
theorem staIndx (b : Byte) : Statement (.staIndx b) :=
  of_byte (congrArg (fun x => some (Instr.staIndx x)) (lowByte_zext b)) rfl rfl rfl
theorem staIndy (b : Byte) : Statement (.staIndy b) :=
  of_byte (congrArg (fun x => some (Instr.staIndy x)) (lowByte_zext b)) rfl rfl rfl
theorem stxZpg (b : Byte) : Statement (.stxZpg b) :=
  of_byte (congrArg (fun x => some (Instr.stxZpg x)) (lowByte_zext b)) rfl rfl rfl
theorem stxZpgy (b : Byte) : Statement (.stxZpgy b) :=
  of_byte (congrArg (fun x => some (Instr.stxZpgy x)) (lowByte_zext b)) rfl rfl rfl
theorem stxAbs (v : Word) : Statement (.stxAbs v) := of_word rfl rfl rfl
theorem styZpg (b : Byte) : Statement (.styZpg b) :=
  of_byte (congrArg (fun x => some (Instr.styZpg x)) (lowByte_zext b)) rfl rfl rfl
theorem styZpgx (b : Byte) : Statement (.styZpgx b) :=
  of_byte (congrArg (fun x => some (Instr.styZpgx x)) (lowByte_zext b)) rfl rfl rfl
theorem styAbs (v : Word) : Statement (.styAbs v) := of_word rfl rfl rfl

/-- The statement for every instruction. -/
theorem all (i : Instr) : Statement i := by
  cases i with
  | nop => exact nop
  | tax => exact tax
  | txa => exact txa
  | tay => exact tay
  | tya => exact tya
  | inx => exact inx
  | dex => exact dex
  | iny => exact iny
  | dey => exact dey
  | pha => exact pha
  | pla => exact pla
  | jmpAbs v => exact jmpAbs v
  | jmpInd v => exact jmpInd v
  | jsrAbs v => exact jsrAbs v
  | rts => exact rts
  | cmpImm b => exact cmpImm b
  | cmpZpg b => exact cmpZpg b
  | cmpZpgx b => exact cmpZpgx b
  | cmpAbs v => exact cmpAbs v
  | cmpAbsx v => exact cmpAbsx v
  | cmpAbsy v => exact cmpAbsy v
  | cmpIndx b => exact cmpIndx b
  | cmpIndy b => exact cmpIndy b
  | ldaImm b => exact ldaImm b
  | ldaZpg b => exact ldaZpg b
  | ldaZpgx b => exact ldaZpgx b
  | ldaAbs v => exact ldaAbs v
  | ldaAbsx v => exact ldaAbsx v
  | ldaAbsy v => exact ldaAbsy v
  | ldaIndx b => exact ldaIndx b
  | ldaIndy b => exact ldaIndy b
  | ldxImm b => exact ldxImm b
  | ldxZpg b => exact ldxZpg b
  | ldxZpgy b => exact ldxZpgy b
  | ldxAbs v => exact ldxAbs v
  | ldxAbsy v => exact ldxAbsy v
  | ldyImm b => exact ldyImm b
  | ldyZpg b => exact ldyZpg b
  | ldyZpgx b => exact ldyZpgx b
  | ldyAbs v => exact ldyAbs v
  | ldyAbsx v => exact ldyAbsx v
  | staZpg b => exact staZpg b
  | staZpgx b => exact staZpgx b
  | staAbs v => exact staAbs v
  | staAbsx v => exact staAbsx v
  | staAbsy v => exact staAbsy v
  | staIndx b => exact staIndx b
  | staIndy b => exact staIndy b
  | stxZpg b => exact stxZpg b
  | stxZpgy b => exact stxZpgy b
  | stxAbs v => exact stxAbs v
  | styZpg b => exact styZpg b
  | styZpgx b => exact styZpgx b
  | styAbs v => exact styAbs v

end Sys2Proof.Laws.Rebuild
end

