-- ==== Sys2Proof/Laws/Decode.lean ====
section
/-! SUPPORT. The opcode table's lookups and what the decoder can answer. -/

namespace Sys2Proof

open Machine

/-- A mode's length is one of R50's. -/
theorem modeLength_cases (m : Option Mode) : modeLength m = 1 ∨ modeLength m = 2 ∨ modeLength m = 3 := by
  unfold modeLength
  split <;> simp

/-- The row of an opcode byte is a row of the table with that byte. -/
theorem rowOf_some {t : OpTable} {op : Byte} {r : OpRow} (h : rowOf t op = some r) :
    r ∈ t ∧ r.opcode = op :=
  ⟨List.mem_of_find?_eq_some h, by simpa using List.find?_some h⟩

/-- In a table with distinct opcodes a row is the one its opcode byte looks up. -/
theorem rowOf_of_mem {t : OpTable} (ht : OpTable.opcodesDistinct t = true) {r : OpRow} (h : r ∈ t) :
    rowOf t r.opcode = some r := by
  induction t with
  | nil => simp at h
  | cons q t ih =>
    simp only [OpTable.opcodesDistinct, Bool.and_eq_true, List.all_eq_true] at ht
    rcases List.mem_cons.mp h with rfl | hr
    · simp [rowOf]
    · have hne : r.opcode ≠ q.opcode := by simpa using ht.1 r hr
      simpa [rowOf, List.find?_cons, Ne.symm hne] using ih ht.2 hr

/-- The row the encoder looks up is a row of the table for the pair. -/
theorem rowFor_some {t : OpTable} {d : Decoded} {r : OpRow} (h : rowFor t d = some r) :
    r ∈ t ∧ r.mnemonic = d.mnemonic ∧ r.mode = d.mode :=
  ⟨List.mem_of_find?_eq_some h, by simpa using List.find?_some h⟩

/-- In a well-formed table a row's length is its mode's. -/
theorem length_of_mem {t : OpTable} (ht : OpTable.wellFormed t = true) {r : OpRow} (h : r ∈ t) :
    r.length = modeLength r.mode := by
  simp only [OpTable.wellFormed, Bool.and_eq_true, OpTable.lengthsMatch, List.all_eq_true] at ht
  simpa using ht.1.2 r h

theorem opcodesDistinct_of_wellFormed {t : OpTable} (ht : OpTable.wellFormed t = true) :
    OpTable.opcodesDistinct t = true := by
  simp only [OpTable.wellFormed, Bool.and_eq_true] at ht
  exact ht.1.1

/-- In a well-formed table a row's pair is admissible. -/
theorem admissible_of_mem {t : OpTable} (ht : OpTable.wellFormed t = true) {r : OpRow} (h : r ∈ t) :
    admissible r.mnemonic r.mode = true := by
  simp only [OpTable.wellFormed, Bool.and_eq_true, OpTable.pairsAdmissible, List.all_eq_true] at ht
  exact ht.2 r h

/-- The construction of a table answers the table itself when it is well formed, and nothing else. -/
theorem construct_ok {rows t : OpTable} :
    OpTable.construct rows = .ok t ↔ OpTable.wellFormed rows = true ∧ t = rows := by
  unfold OpTable.construct OpTable.wellFormed
  cases OpTable.opcodesDistinct rows <;> cases OpTable.lengthsMatch rows <;>
    cases OpTable.pairsAdmissible rows <;> simp [eq_comm]

/-- The instruction made of a pair has that pair. -/
theorem instrOf_some {mn : Mnemonic} {mode : Option Mode} {v : Word} {i : Instr}
    (h : instrOf mn mode v = some i) : i.mnemonic = mn ∧ i.mode = mode := by
  unfold instrOf at h
  split at h <;> cases h <;> exact ⟨rfl, rfl⟩

/-- The instruction made of a pair has the operand value, as far as the length of its mode keeps it. -/
theorem instrOf_operand {mn : Mnemonic} {mode : Option Mode} {v : Word} {i : Instr}
    (h : instrOf mn mode v = some i) :
    i.operand = match modeLength mode with
      | 2 => zext (lowByte v)
      | 3 => v
      | _ => 0 := by
  unfold instrOf at h
  split at h <;> cases h <;> rfl

/-- OPTABLE is well formed (R56). -/
theorem optable_wellFormed : OpTable.wellFormed optable = true := by decide

/-- Every row of OPTABLE is the row of some instruction. -/
theorem optable_representable {r : OpRow} (h : r ∈ optable) (v : Word) :
    ∃ i, instrOf r.mnemonic r.mode v = some i := by
  have key : ∀ q ∈ optable, (instrOf q.mnemonic q.mode 0).isSome = true := by decide
  have hq := key r h
  revert hq
  unfold instrOf
  split <;> simp

/-- The decoder over a table answers only through a row of the table. -/
theorem decodeWith_ok {t : OpTable} {bytes rest : List Byte} {d : Decoded}
    (h : decodeWith t bytes = .ok (d, rest)) :
    ∃ op more row, bytes = op :: more ∧ rowOf t op = some row ∧
      takeOperand row more = .ok (d.operand, rest) ∧ d.mnemonic = row.mnemonic ∧ d.mode = row.mode := by
  cases bytes with
  | nil => cases h
  | cons op more =>
    simp only [decodeWith] at h
    split at h
    · cases h
    · split at h
      · cases h
      · cases h
        exact ⟨op, more, _, rfl, ‹_›, ‹_›, rfl, rfl⟩

/-- The decoder over OPTABLE answers what the decoder over a table answers, as an instruction. -/
theorem decode_ok {bytes rest : List Byte} {i : Instr} :
    decode bytes = .ok (i, rest) ↔
      ∃ d, decodeWith optable bytes = .ok (d, rest) ∧ instrOf d.mnemonic d.mode d.operand = some i := by
  unfold decode
  constructor
  · intro h
    split at h
    · cases h
    · split at h
      · cases h
      · cases h
        exact ⟨_, ‹_›, ‹_›⟩
  · rintro ⟨d, hd, hi⟩
    simp only [hd, hi]

/-- An operand that fits is what its operand bytes give back, whatever follows them. -/
theorem takeOperand_operandBytes {d : Decoded} (hd : d.operandFits = true) {row : OpRow}
    (hl : row.length = modeLength d.mode) (rest : List Byte) :
    takeOperand row (operandBytes row.length d.operand ++ rest) = .ok (d.operand, rest) := by
  rcases modeLength_cases d.mode with h | h | h <;>
    simp only [Decoded.operandFits, h, beq_iff_eq] at hd <;>
    simp only [takeOperand, operandBytes, hl, h, List.cons_append, List.nil_append]
  · rw [hd]
  · rw [← joinBytes_halves d.operand, hd, lowByte_joinBytes, joinBytes_zero]
  · rw [joinBytes_halves]

/-- The bytes an operand takes are its operand bytes. -/
theorem takeOperand_ok {row : OpRow} {bytes rest : List Byte} {v : Word}
    (h : takeOperand row bytes = .ok (v, rest)) :
    bytes = operandBytes row.length v ++ rest ∧ 1 ≤ row.length ∧ row.length ≤ 3 := by
  unfold takeOperand at h
  split at h
  · cases h
    simp [operandBytes, *]
  · split at h
    · cases h
      simp [operandBytes, *]
    · cases h
  · split at h
    · cases h
      simp [operandBytes, *]
    · cases h
  · cases h

/-- Over a well-formed table a decode fails only by an undefined opcode or for want of bytes. -/
theorem decodeWith_error {t : OpTable} (ht : OpTable.wellFormed t = true) {bytes : List Byte}
    {e : DecodeError} (h : decodeWith t bytes = .error e) :
    e = .truncated ∨ ∃ op, e = .invalidOpcode op := by
  unfold decodeWith at h
  split at h
  · cases h; exact .inl rfl
  · split at h
    · cases h; exact .inr ⟨_, rfl⟩
    · rename_i row hrow
      split at h
      · rename_i e' he
        cases h
        unfold takeOperand at he
        rcases modeLength_cases row.mode with hm | hm | hm <;>
          simp only [length_of_mem ht (rowOf_some hrow).1, hm] at he
        · cases he
        · split at he
          · cases he
          · cases he; exact .inl rfl
        · split at he
          · cases he
          · cases he; exact .inl rfl
      · cases h

/-- OPTABLE is well formed and its rows are instructions, so the same holds of the decoder over it. -/
theorem decode_error {bytes : List Byte} {e : DecodeError} (h : decode bytes = .error e) :
    e = .truncated ∨ ∃ op, e = .invalidOpcode op := by
  unfold decode at h
  split at h
  · cases h
    exact decodeWith_error optable_wellFormed ‹_›
  · rename_i d rest hd
    obtain ⟨op, more, row, -, hrow, -, h1, h2⟩ := decodeWith_ok hd
    obtain ⟨i, hi⟩ := optable_representable (rowOf_some hrow).1 d.operand
    simp only [h1, h2, hi] at h
    cases h

/-- The decoder names an opcode as undefined only when the table has no row for it. -/
theorem decode_invalidOpcode {op op' : Byte} {more : List Byte}
    (h : decode (op :: more) = .error (.invalidOpcode op')) : rowOf optable op = none := by
  cases hr : rowOf optable op with
  | none => rfl
  | some row =>
    simp only [decode, decodeWith, hr] at h
    cases htake : takeOperand row more with
    | error e =>
      simp only [htake] at h
      cases h
      unfold takeOperand at htake
      split at htake <;> (try split at htake) <;> cases htake
    | ok p =>
      simp only [htake] at h
      split at h <;> cases h

/-- R56 (a) as a proposition. -/
theorem opcodesDistinct_iff {t : OpTable} :
    OpTable.opcodesDistinct t = true ↔ t.Pairwise fun r q => r.opcode ≠ q.opcode := by
  induction t with
  | nil => simp [OpTable.opcodesDistinct]
  | cons r t ih =>
    simp only [OpTable.opcodesDistinct, Bool.and_eq_true, List.pairwise_cons, ih, List.all_eq_true,
      bne_iff_ne, ne_comm]

/-- What the decoder over a well-formed table answers has an operand value that fits its mode. -/
theorem decodeWith_operandFits {t : OpTable} (ht : OpTable.wellFormed t = true) {bytes rest : List Byte}
    {d : Decoded} (h : decodeWith t bytes = .ok (d, rest)) : d.operandFits = true := by
  obtain ⟨op, more, row, -, hrow, htake, -, hmode⟩ := decodeWith_ok h
  have hl := length_of_mem ht (rowOf_some hrow).1
  rw [← hmode] at hl
  unfold takeOperand at htake
  rcases modeLength_cases d.mode with hm | hm | hm <;> rw [hm] at hl <;>
    simp only [hl] at htake <;> simp only [Decoded.operandFits, hm, beq_iff_eq]
  · simp only [Except.ok.injEq, Prod.mk.injEq] at htake
    exact htake.1.symm
  · split at htake
    · simp only [Except.ok.injEq, Prod.mk.injEq] at htake
      rw [← htake.1, ← joinBytes_zero, highByte_joinBytes]
    · cases htake

/-- A decoded pair whose operand value fits is the one its instruction stands for. -/
theorem instrOf_decoded {d : Decoded} (hd : d.operandFits = true) {i : Instr}
    (h : instrOf d.mnemonic d.mode d.operand = some i) : i.decoded = d := by
  obtain ⟨h1, h2⟩ := instrOf_some h
  have hv : i.operand = d.operand := by
    rw [instrOf_operand h]
    rcases modeLength_cases d.mode with hm | hm | hm <;>
      simp only [Decoded.operandFits, hm, beq_iff_eq] at hd <;> simp only [hm]
    · exact hd.symm
    · rw [← joinBytes_halves d.operand, hd, lowByte_joinBytes, joinBytes_zero]
  rw [Instr.decoded, h1, h2, hv]

end Sys2Proof
end

