-- ==== Sys2Proof/Laws/State.lean ====
section
/-! SUPPORT. One lemma per field per update of the state, and the reads of one byte after each
update. -/

namespace Sys2Proof.Machine

/-! ### setReg -/

@[simp] theorem State.setReg_sp (s : State) (r : Reg) (v : Byte) : (s.setReg r v).sp = s.sp := by
  cases r <;> rfl
@[simp] theorem State.setReg_pc (s : State) (r : Reg) (v : Byte) : (s.setReg r v).pc = s.pc := by
  cases r <;> rfl
@[simp] theorem State.setReg_flags (s : State) (r : Reg) (v : Byte) : (s.setReg r v).flags = s.flags := by
  cases r <;> rfl
@[simp] theorem State.setReg_st (s : State) (r : Reg) (v : Byte) : (s.setReg r v).st = s.st := by
  cases r <;> rfl
@[simp] theorem State.setReg_mem (s : State) (r : Reg) (v : Byte) : (s.setReg r v).mem = s.mem := by
  cases r <;> rfl
@[simp] theorem State.setReg_readByte (s : State) (r : Reg) (v : Byte) (a : Word) :
    (s.setReg r v).readByte a = s.readByte a := by
  cases r <;> rfl
@[simp] theorem State.getReg_setReg_same (s : State) (r : Reg) (v : Byte) :
    (s.setReg r v).getReg r = v := by
  cases r <;> rfl
theorem State.getReg_setReg_other (s : State) {r q : Reg} (v : Byte) (h : q ≠ r) :
    (s.setReg r v).getReg q = s.getReg q := by
  cases r <;> cases q <;> first | rfl | exact absurd rfl h
@[simp] theorem State.setReg_a_a (s : State) (v : Byte) : (s.setReg .a v).a = v := rfl
@[simp] theorem State.setReg_a_x (s : State) (v : Byte) : (s.setReg .a v).x = s.x := rfl
@[simp] theorem State.setReg_a_y (s : State) (v : Byte) : (s.setReg .a v).y = s.y := rfl
@[simp] theorem State.setReg_x_a (s : State) (v : Byte) : (s.setReg .x v).a = s.a := rfl
@[simp] theorem State.setReg_x_x (s : State) (v : Byte) : (s.setReg .x v).x = v := rfl
@[simp] theorem State.setReg_x_y (s : State) (v : Byte) : (s.setReg .x v).y = s.y := rfl
@[simp] theorem State.setReg_y_a (s : State) (v : Byte) : (s.setReg .y v).a = s.a := rfl
@[simp] theorem State.setReg_y_x (s : State) (v : Byte) : (s.setReg .y v).x = s.x := rfl
@[simp] theorem State.setReg_y_y (s : State) (v : Byte) : (s.setReg .y v).y = v := rfl

/-! ### writeByte -/

@[simp] theorem State.writeByte_a (s : State) (a : Word) (b : Byte) : (s.writeByte a b).a = s.a := rfl
@[simp] theorem State.writeByte_x (s : State) (a : Word) (b : Byte) : (s.writeByte a b).x = s.x := rfl
@[simp] theorem State.writeByte_y (s : State) (a : Word) (b : Byte) : (s.writeByte a b).y = s.y := rfl
@[simp] theorem State.writeByte_sp (s : State) (a : Word) (b : Byte) : (s.writeByte a b).sp = s.sp := rfl
@[simp] theorem State.writeByte_pc (s : State) (a : Word) (b : Byte) : (s.writeByte a b).pc = s.pc := rfl
@[simp] theorem State.writeByte_flags (s : State) (a : Word) (b : Byte) :
    (s.writeByte a b).flags = s.flags := rfl
@[simp] theorem State.writeByte_st (s : State) (a : Word) (b : Byte) : (s.writeByte a b).st = s.st := rfl
@[simp] theorem State.writeByte_mem (s : State) (a : Word) (b : Byte) :
    (s.writeByte a b).mem = s.mem.write a.toNat b := rfl
@[simp] theorem State.readByte_writeByte_same (s : State) (a : Word) (b : Byte) :
    (s.writeByte a b).readByte a = b := Memory.read_write_same ..
theorem State.readByte_writeByte_other (s : State) {a a' : Word} (b : Byte) (h : a ≠ a') :
    (s.writeByte a b).readByte a' = s.readByte a' :=
  Memory.read_write_other _ _ fun e => h (BitVec.eq_of_toNat_eq e)

/-! ### push and pull -/

@[simp] theorem push_a (b : Byte) (s : State) : (push b s).a = s.a := rfl
@[simp] theorem push_x (b : Byte) (s : State) : (push b s).x = s.x := rfl
@[simp] theorem push_y (b : Byte) (s : State) : (push b s).y = s.y := rfl
@[simp] theorem push_sp (b : Byte) (s : State) : (push b s).sp = s.sp - 1 := rfl
@[simp] theorem push_pc (b : Byte) (s : State) : (push b s).pc = s.pc := rfl
@[simp] theorem push_flags (b : Byte) (s : State) : (push b s).flags = s.flags := rfl
@[simp] theorem push_st (b : Byte) (s : State) : (push b s).st = s.st := rfl
@[simp] theorem push_mem (b : Byte) (s : State) :
    (push b s).mem = s.mem.write (stackAddr s.sp).toNat b := rfl
@[simp] theorem pull_byte (s : State) : (pull s).1 = s.readByte (stackAddr (s.sp + 1)) := rfl
@[simp] theorem pull_state (s : State) : (pull s).2 = { s with sp := s.sp + 1 } := rfl

/-! ### readByte after updates of other fields -/

@[simp] theorem readByte_with_a (s : State) (v : Byte) (a : Word) :
    ({ s with a := v } : State).readByte a = s.readByte a := rfl
@[simp] theorem readByte_with_x (s : State) (v : Byte) (a : Word) :
    ({ s with x := v } : State).readByte a = s.readByte a := rfl
@[simp] theorem readByte_with_y (s : State) (v : Byte) (a : Word) :
    ({ s with y := v } : State).readByte a = s.readByte a := rfl
@[simp] theorem readByte_with_sp (s : State) (v : Byte) (a : Word) :
    ({ s with sp := v } : State).readByte a = s.readByte a := rfl
@[simp] theorem readByte_with_pc (s : State) (v a : Word) :
    ({ s with pc := v } : State).readByte a = s.readByte a := rfl
@[simp] theorem readByte_with_flags (s : State) (f : Flags) (a : Word) :
    ({ s with flags := f } : State).readByte a = s.readByte a := rfl
@[simp] theorem readByte_with_st (s : State) (q : Status) (a : Word) :
    ({ s with st := q } : State).readByte a = s.readByte a := rfl

/-! ### reset -/

@[simp] theorem applyReset_a (a x y : Byte) (s : State) : (applyReset a x y s).a = a := rfl
@[simp] theorem applyReset_x (a x y : Byte) (s : State) : (applyReset a x y s).x = x := rfl
@[simp] theorem applyReset_y (a x y : Byte) (s : State) : (applyReset a x y s).y = y := rfl
@[simp] theorem applyReset_sp (a x y : Byte) (s : State) : (applyReset a x y s).sp = resetSp := rfl
@[simp] theorem applyReset_flags (a x y : Byte) (s : State) :
    (applyReset a x y s).flags = Flags.clear := rfl
@[simp] theorem applyReset_st (a x y : Byte) (s : State) : (applyReset a x y s).st = .running := rfl
@[simp] theorem applyReset_mem (a x y : Byte) (s : State) : (applyReset a x y s).mem = s.mem := rfl
@[simp] theorem launch_mem (a x y : Byte) (m : Memory) : (launch a x y m).mem = m := rfl
@[simp] theorem launch_flags (a x y : Byte) (m : Memory) : (launch a x y m).flags = Flags.clear := rfl

end Sys2Proof.Machine
end

