-- ==== Sys2Proof/Laws/Ops.lean ====
section
/-! SUPPORT. What each shared operation of Machine/Ops.lean can do, said once. -/

namespace Sys2Proof.Machine

theorem stackAddr_toNat (sp : Byte) : (stackAddr sp).toNat = 0x0100 + sp.toNat := by
  simp [stackAddr, stackPage]

theorem stackAddr_injective {p q : Byte} (h : stackAddr p = stackAddr q) : p = q := by
  apply BitVec.eq_of_toNat_eq
  have := congrArg BitVec.toNat h
  simp only [stackAddr_toNat] at this
  omega

theorem inRange_eq_ok {n : Nat} (h : n ≤ 0xFFFF) : inRange n = .ok (BitVec.ofNat 16 n) := by
  simp [inRange, addressCount, Nat.lt_succ_of_le h]

theorem inRange_eq_error {n : Nat} (h : 0xFFFF < n) : inRange n = .error .addressOutOfRange := by
  simp [inRange, addressCount, Nat.not_lt_of_le h]

/-- `inRange` answers the number as a word, or AddressOutOfRange. -/
theorem inRange_cases {n : Nat} {r : Except Exc Word} (h : inRange n = r) :
    (n ≤ 0xFFFF ∧ ∃ a : Word, r = .ok a ∧ a.toNat = n) ∨
      (0xFFFF < n ∧ r = .error .addressOutOfRange) := by
  by_cases hn : n ≤ 0xFFFF
  · refine .inl ⟨hn, _, (inRange_eq_ok hn ▸ h).symm, ?_⟩
    simp only [BitVec.toNat_ofNat]
    omega
  · exact .inr ⟨by omega, by rw [← h, inRange_eq_error (by omega)]⟩

@[simp] theorem settlePc_advance (len : Nat) (s : State) :
    settlePc len (advance s) = { s with pc := s.pc + BitVec.ofNat 16 len } := rfl

@[simp] theorem settlePc_jumpTo (len : Nat) (target : Word) (s : State) :
    settlePc len (jumpTo target s) = { s with pc := target } := rfl

/-- An instruction whose mode resolves, and whose successor exists where it must, completes. -/
theorem perform_completes {α : Type} {mn : Mnemonic} {len : Nat} {r : Except Exc α} {x : α}
    {f : α → State → Handled} {s : State} (hr : r = .ok x) (hs : successorOk mn len s = true) :
    perform mn len r f s = .next (settlePc len (f x s)) := by
  subst hr
  simp [perform, hs]

/-- An instruction whose mode raises takes that exception. -/
theorem perform_resolve_raises {α : Type} {mn : Mnemonic} {len : Nat} {k : Exc}
    {r : Except Exc α} {f : α → State → Handled} {s : State} (hr : r = .error k) :
    perform mn len r f s = raise k s := by
  subst hr
  rfl

/-- An instruction that needs its successor and has none raises AddressOutOfRange. -/
theorem perform_successor_raises {α : Type} {mn : Mnemonic} {len : Nat} {r : Except Exc α} {x : α}
    {f : α → State → Handled} {s : State} (hr : r = .ok x) (hs : successorOk mn len s = false) :
    perform mn len r f s = raise .addressOutOfRange s := by
  subst hr
  simp [perform, hs]

/-- All that `perform` can answer: the exception of resolving, the handler's state with PC settled,
or AddressOutOfRange from the successor check. -/
theorem perform_cases {α : Type} {mn : Mnemonic} {len : Nat} {r : Except Exc α}
    {f : α → State → Handled} {s : State} {o : Result} (h : perform mn len r f s = o) :
    (∃ k, r = .error k ∧ o = raise k s) ∨
    (∃ x, r = .ok x ∧ successorOk mn len s = true ∧ o = .next (settlePc len (f x s))) ∨
    (∃ x, r = .ok x ∧ successorOk mn len s = false ∧ o = raise .addressOutOfRange s) := by
  subst h
  cases r with
  | error k => exact .inl ⟨k, rfl, rfl⟩
  | ok x =>
    cases hs : successorOk mn len s with
    | true => exact .inr (.inl ⟨x, rfl, rfl, perform_completes rfl hs⟩)
    | false => exact .inr (.inr ⟨x, rfl, rfl, perform_successor_raises rfl hs⟩)

/-- The successor check, in the spec's arithmetic. -/
theorem successorOk_iff (mn : Mnemonic) (len : Nat) (s : State) :
    successorOk mn len s = true ↔ mn = .jmp ∨ mn = .rts ∨ s.pc.toNat + len ≤ 0xFFFF := by
  have h : s.pc.toNat + len < addressCount ↔ s.pc.toNat + len ≤ 0xFFFF := by
    simp only [addressCount]
    omega
  cases mn <;> simp [successorOk, needsSuccessor, h]

theorem push_readByte_slot (b : Byte) (s : State) : (push b s).readByte (stackAddr s.sp) = b :=
  State.readByte_writeByte_same s _ b

theorem push_readByte_other (b : Byte) (s : State) {a : Word} (h : a ≠ stackAddr s.sp) :
    (push b s).readByte a = s.readByte a :=
  State.readByte_writeByte_other s b (Ne.symm h)

end Sys2Proof.Machine
end

