-- ==== Sys2Proof/Laws/Operands.lean ====
section
/-! SUPPORT. The resolver: one equation per mode, and all it can answer. -/

namespace Sys2Proof.Machine

theorem effectiveAddress_zpg (v : Word) (s : State) :
    effectiveAddress .zpg v s = .ok (zext (lowByte v)) := rfl
theorem effectiveAddress_zpgx (v : Word) (s : State) :
    effectiveAddress .zpgx v s = .ok (zext (lowByte v + s.x)) := rfl
theorem effectiveAddress_zpgy (v : Word) (s : State) :
    effectiveAddress .zpgy v s = .ok (zext (lowByte v + s.y)) := rfl
theorem effectiveAddress_abs (v : Word) (s : State) : effectiveAddress .abs v s = .ok v := rfl
theorem effectiveAddress_absx (v : Word) (s : State) :
    effectiveAddress .absx v s = inRange (v.toNat + s.x.toNat) := rfl
theorem effectiveAddress_absy (v : Word) (s : State) :
    effectiveAddress .absy v s = inRange (v.toNat + s.y.toNat) := rfl
theorem effectiveAddress_indx (v : Word) (s : State) :
    effectiveAddress .indx v s = .ok (zeroPagePointer (lowByte v + s.x) s) := rfl
theorem effectiveAddress_indy (v : Word) (s : State) :
    effectiveAddress .indy v s = inRange ((zeroPagePointer (lowByte v) s).toNat + s.y.toNat) := rfl
theorem effectiveAddress_ind (v : Word) (s : State) :
    effectiveAddress .ind v s = indTarget pageCross v s := rfl

@[simp] theorem resolve_imm (v : Word) (s : State) :
    resolve .imm v s = .ok (.immediate (lowByte v)) := rfl

theorem resolve_mem_ok {m : MemMode} {v ea : Word} {s : State}
    (h : effectiveAddress m v s = .ok ea) : resolve (.mem m) v s = .ok (.address ea) := by
  simp [resolve, h]

theorem resolve_mem_error {m : MemMode} {v : Word} {s : State} {k : Exc}
    (h : effectiveAddress m v s = .error k) : resolve (.mem m) v s = .error k := by
  simp [resolve, h]

@[simp] theorem operandValue_immediate (b : Byte) (s : State) : operandValue (.immediate b) s = b := rfl
@[simp] theorem operandValue_address (a : Word) (s : State) :
    operandValue (.address a) s = s.readByte a := rfl

/-- The pointer of a zero-page location, in the spec's arithmetic. -/
theorem zeroPagePointer_toNat (p : Byte) (s : State) :
    (zeroPagePointer p s).toNat =
      256 * (s.mem.read ((p.toNat + 1) % 256)).toNat + (s.mem.read p.toNat).toNat := by
  simp [zeroPagePointer, State.readByte, BitVec.toNat_add]

/-- Where the high byte of a `JMP ind` pointer is read, away from a page end. -/
theorem indHighAt_inside {v : Word} (h : v.toNat % 256 ≠ 0xFF) (p : PageCross) :
    indHighAt p v = .ok (v + 1) := by
  have : lowByte v ≠ 0xFF := fun e => h (by simpa using congrArg BitVec.toNat e)
  exact if_neg this

/-- Where the high byte of a `JMP ind` pointer is read, at a page end. -/
theorem indHighAt_pageEnd {v : Word} (h : v.toNat % 256 = 0xFF) (p : PageCross) :
    indHighAt p v =
      match p with
      | .carry => inRange (v.toNat + 1)
      | .samePage => .ok (joinBytes (highByte v) 0) := by
  have : lowByte v = 0xFF := BitVec.eq_of_toNat_eq (by simpa using h)
  cases p <;> exact if_pos this

/-- Resolving raises AddressOutOfRange and nothing else. -/
theorem effectiveAddress_error {m : MemMode} {v : Word} {s : State} {k : Exc}
    (h : effectiveAddress m v s = .error k) : k = .addressOutOfRange := by
  have hr : ∀ {n : Nat}, inRange n = .error k → k = .addressOutOfRange := fun h => by
    rcases inRange_cases h with ⟨-, a, ha, -⟩ | ⟨-, hk⟩
    · cases ha
    · exact Except.error.inj hk
  cases m with
  | absx => exact hr h
  | absy => exact hr h
  | indy => exact hr h
  | ind =>
    have hi : indHighAt pageCross v = .error k := by
      rw [effectiveAddress_ind, indTarget] at h
      split at h
      · rename_i hk
        rw [hk, Except.error.inj h]
      · cases h
    by_cases hv : v.toNat % 256 = 0xFF
    · rw [indHighAt_pageEnd hv] at hi
      split at hi
      · exact hr hi
      · cases hi
    · rw [indHighAt_inside hv] at hi
      cases hi
  | _ => cases h

theorem resolve_error {m : Mode} {v : Word} {s : State} {k : Exc} (h : resolve m v s = .error k) :
    k = .addressOutOfRange := by
  cases m with
  | imm => cases h
  | mem mm =>
    simp only [resolve] at h
    split at h
    · rename_i he
      rw [← Except.error.inj h]
      exact effectiveAddress_error he
    · cases h

end Sys2Proof.Machine
end

