-- ==== Sys2Proof/Laws/Exec.lean ====
section
/-! SUPPORT. The dispatch, by family: which shared operation each instruction runs, and one inversion
lemma per family (all it can answer). -/

namespace Sys2Proof.Machine

/-- The register an instruction loads, if it is a load. -/
def loadedReg : Mnemonic → Option Reg
  | .lda => some .a
  | .ldx => some .x
  | .ldy => some .y
  | _ => none

/-- The register an instruction stores, if it is a store. -/
def storedReg : Mnemonic → Option Reg
  | .sta => some .a
  | .stx => some .x
  | .sty => some .y
  | _ => none

/-- Every load runs the shared operation with its own mode and operand. -/
theorem exec_load {i : Instr} {r : Reg} {m : Mode} (hr : loadedReg i.mnemonic = some r)
    (hm : i.mode = some m) (s : State) : exec i s = load i.mnemonic r m i.operand s := by
  cases i <;> cases hr <;> cases hm <;> rfl

/-- Every store runs the shared operation with its own mode and operand. -/
theorem exec_store {i : Instr} {r : Reg} {m : MemMode} (hr : storedReg i.mnemonic = some r)
    (hm : i.mode = some (.mem m)) (s : State) : exec i s = store i.mnemonic r m i.operand s := by
  cases i <;> cases hr <;> cases hm <;> rfl

/-- Every CMP runs the shared operation with its own mode and operand. -/
theorem exec_compare {i : Instr} {m : Mode} (hc : i.mnemonic = .cmp) (hm : i.mode = some m)
    (s : State) : exec i s = compareOperand m i.operand s := by
  cases i <;> cases hc <;> cases hm <;> rfl

/-- The handler of an instruction without a memory operand or a mode. -/
def impliedHandler : Mnemonic → Option (State → Handled)
  | .nop => some fun s => advance s
  | .tax => some fun s => advance (s.setReg .x s.a)
  | .txa => some fun s => advance (s.setReg .a s.x)
  | .tay => some fun s => advance (s.setReg .y s.a)
  | .tya => some fun s => advance (s.setReg .a s.y)
  | .inx => some fun s => advance (s.setReg .x (s.x + 1))
  | .dex => some fun s => advance (s.setReg .x (s.x - 1))
  | .iny => some fun s => advance (s.setReg .y (s.y + 1))
  | .dey => some fun s => advance (s.setReg .y (s.y - 1))
  | .pha => some fun s => advance (push s.a s)
  | .pla => some fun s => advance ((pull s).2.setReg .a (pull s).1)
  | .rts => some fun s => jumpTo (joinBytes (pull (pull s).2).1 (pull s).1) (pull (pull s).2).2
  | _ => none

/-- Every instruction without a mode runs its handler through the shared skeleton. -/
theorem exec_implied {i : Instr} {f : State → Handled} (hf : impliedHandler i.mnemonic = some f)
    (s : State) : exec i s = performImplied i.mnemonic f s := by
  cases i <;> cases hf <;> rfl

/-- Every instruction is a load, a store, a compare, a jump, a JSR or one without a mode. -/
theorem instr_family (i : Instr) :
    (∃ r m, loadedReg i.mnemonic = some r ∧ i.mode = some m) ∨
    (∃ r m, storedReg i.mnemonic = some r ∧ i.mode = some (.mem m)) ∨
    (∃ m, i.mnemonic = .cmp ∧ i.mode = some m) ∨
    (∃ f, impliedHandler i.mnemonic = some f ∧ i.mode = none) ∨
    (∃ v, i = .jmpAbs v) ∨ (∃ v, i = .jmpInd v) ∨ (∃ v, i = .jsrAbs v) := by
  cases i <;>
    first
    | exact .inl ⟨_, _, rfl, rfl⟩
    | exact .inr (.inl ⟨_, _, rfl, rfl⟩)
    | exact .inr (.inr (.inl ⟨_, rfl, rfl⟩))
    | exact .inr (.inr (.inr (.inl ⟨_, rfl, rfl⟩)))
    | exact .inr (.inr (.inr (.inr (.inl ⟨_, rfl⟩))))
    | exact .inr (.inr (.inr (.inr (.inr (.inl ⟨_, rfl⟩)))))
    | exact .inr (.inr (.inr (.inr (.inr (.inr ⟨_, rfl⟩)))))

theorem exec_jmpAbs (v : Word) (s : State) : exec (.jmpAbs v) s = jump .abs v s := rfl
theorem exec_jmpInd (v : Word) (s : State) : exec (.jmpInd v) s = jump .ind v s := rfl
theorem exec_jsrAbs (v : Word) (s : State) :
    exec (.jsrAbs v) s =
      perform .jsr 3 (.ok v)
        (fun t s => jumpTo t (push (lowByte (s.pc + 3)) (push (highByte (s.pc + 3)) s))) s := rfl

/-- A jump completes at its effective address, or raises what resolving raises: it has no successor
check. -/
theorem jump_eq (m : MemMode) (v : Word) (s : State) :
    jump m v s =
      match effectiveAddress m v s with
      | .ok target => .next { s with pc := target }
      | .error k => raise k s := by
  cases h : effectiveAddress m v s with
  | error k => exact perform_resolve_raises h
  | ok target => exact perform_completes h ((successorOk_iff ..).mpr (.inl rfl))

/-- All that an instruction can answer: AddressOutOfRange taken, or the effect of its family, complete.
In the last five cases the state after is written out. -/
theorem exec_cases (i : Instr) (s : State) :
    exec i s = raise .addressOutOfRange s ∨
    (∃ r m o, loadedReg i.mnemonic = some r ∧ i.mode = some m ∧ resolve m i.operand s = .ok o ∧
      exec i s = .next { s.setReg r (operandValue o s) with
        pc := s.pc + BitVec.ofNat 16 (instrLength i) }) ∨
    (∃ r m ea, storedReg i.mnemonic = some r ∧ i.mode = some (.mem m) ∧
      effectiveAddress m i.operand s = .ok ea ∧
      exec i s = .next { s.writeByte ea (s.getReg r) with
        pc := s.pc + BitVec.ofNat 16 (instrLength i) }) ∨
    (∃ m o, i.mnemonic = .cmp ∧ i.mode = some m ∧ resolve m i.operand s = .ok o ∧
      exec i s = .next { s with
        flags := compareFlags s.a (operandValue o s) s.flags
        pc := s.pc + BitVec.ofNat 16 (instrLength i) }) ∨
    (∃ f, impliedHandler i.mnemonic = some f ∧ i.mode = none ∧ exec i s = .next (settlePc 1 (f s))) ∨
    (∃ m target, i.mnemonic = .jmp ∧ i.mode = some (.mem m) ∧
      effectiveAddress m i.operand s = .ok target ∧ exec i s = .next { s with pc := target }) ∨
    (i.mnemonic = .jsr ∧ i.mode = some (.mem .abs) ∧
      exec i s = .next { push (lowByte (s.pc + 3)) (push (highByte (s.pc + 3)) s) with
        pc := i.operand }) := by
  rcases instr_family i with ⟨r, m, hr, hm⟩ | ⟨r, m, hr, hm⟩ | ⟨m, hc, hm⟩ | ⟨f, hf, hm⟩ |
    ⟨v, rfl⟩ | ⟨v, rfl⟩ | ⟨v, rfl⟩
  · have hl : instrLength i = modeLength (some m) := by rw [instrLength, hm]
    rcases perform_cases (exec_load hr hm s).symm with ⟨k, hk, h⟩ | ⟨o, ho, -, h⟩ | ⟨o, ho, -, h⟩
    · exact .inl (resolve_error hk ▸ h)
    · refine .inr (.inl ⟨r, m, o, hr, hm, ho, ?_⟩)
      rw [h, settlePc_advance, hl, State.setReg_pc]
    · exact .inl h
  · have hl : instrLength i = modeLength (some (.mem m)) := by rw [instrLength, hm]
    rcases perform_cases (exec_store hr hm s).symm with ⟨k, hk, h⟩ | ⟨o, ho, -, h⟩ | ⟨o, ho, -, h⟩
    · exact .inl (effectiveAddress_error hk ▸ h)
    · refine .inr (.inr (.inl ⟨r, m, o, hr, hm, ho, ?_⟩))
      rw [h, settlePc_advance, hl, State.writeByte_pc]
    · exact .inl h
  · have hl : instrLength i = modeLength (some m) := by rw [instrLength, hm]
    rcases perform_cases (exec_compare hc hm s).symm with ⟨k, hk, h⟩ | ⟨o, ho, -, h⟩ | ⟨o, ho, -, h⟩
    · exact .inl (resolve_error hk ▸ h)
    · refine .inr (.inr (.inr (.inl ⟨m, o, hc, hm, ho, ?_⟩)))
      rw [h, settlePc_advance, hl]
    · exact .inl h
  · rcases perform_cases (exec_implied hf s).symm with ⟨k, hk, -⟩ | ⟨o, -, -, h⟩ | ⟨o, -, -, h⟩
    · cases hk
    · exact .inr (.inr (.inr (.inr (.inl ⟨f, hf, hm, h⟩))))
    · exact .inl h
  · exact .inr (.inr (.inr (.inr (.inr (.inl ⟨.abs, v, rfl, rfl, rfl, rfl⟩)))))
  · cases h : effectiveAddress .ind v s with
    | error k =>
      refine .inl ?_
      rw [exec_jmpInd, jump_eq, h, effectiveAddress_error h]
    | ok target =>
      refine .inr (.inr (.inr (.inr (.inr (.inl ⟨.ind, target, rfl, rfl, h, ?_⟩)))))
      rw [exec_jmpInd, jump_eq, h]
  · rcases perform_cases (exec_jsrAbs v s).symm with ⟨k, hk, -⟩ | ⟨o, ho, -, h⟩ | ⟨o, -, -, h⟩
    · cases hk
    · cases ho
      exact .inr (.inr (.inr (.inr (.inr (.inr ⟨rfl, rfl, h⟩)))))
    · exact .inl h

end Sys2Proof.Machine
end

