-- ==== Sys2Proof/Laws/Step.lean ====
section
/-! SUPPORT. Fetching, and what a step is. -/

namespace Sys2Proof.Machine

theorem step_running {s : State} (h : s.st = .running) :
    step s =
      match fetchDecode s with
      | .ok i => exec i s
      | .error e => decodeFailure e s := by
  cases s
  cases h
  rfl

theorem step_halted {s : State} {k : Exc} (h : s.st = .halted k) : step s = .fault (.halted k) := by
  simp [step, h]

/-- A byte of memory listed from an address upwards is the byte at its address, if that exists. -/
theorem bytesFrom_getElem? (m : Memory) (a n k : Nat) :
    (bytesFrom m a n)[k]? = if k < n ∧ a + k < addressCount then some (m.read (a + k)) else none := by
  induction n generalizing a k with
  | zero => simp [bytesFrom]
  | succ n ih =>
    by_cases ha : a < addressCount
    · cases k with
      | zero => simp [bytesFrom, ha]
      | succ k => simp [bytesFrom, ha, ih, Nat.add_assoc, Nat.add_comm 1 k]
    · have : ¬ a + k < addressCount := fun h => ha (Nat.lt_of_le_of_lt (Nat.le_add_right ..) h)
      simp [bytesFrom, ha, this]

/-- The fetch gives at least the opcode byte. -/
theorem fetchBytes_cons (s : State) :
    fetchBytes s = s.readByte s.pc :: bytesFrom s.mem (s.pc.toNat + 1) 2 := by
  have : s.pc.toNat < addressCount := s.pc.isLt
  simp [fetchBytes, bytesFrom, this, State.readByte]

end Sys2Proof.Machine
end

