-- ==== Sys2Proof/Laws/Engine.lean ====
section
/-! SUPPORT. What the engine over an opcode table can do. -/

namespace Sys2Proof.Machine

theorem stepWith_running {t : OpTable} {s : State} (h : s.st = .running) :
    stepWith t s =
      match decodeWith t (fetchBytes s) with
      | .ok (d, _) => execDecoded d s
      | .error e => decodeFailure e s := by
  cases s
  cases h
  rfl

theorem stepWith_halted {t : OpTable} {s : State} {k : Exc} (h : s.st = .halted k) :
    stepWith t s = .fault (.halted k) := by
  simp [stepWith, h]

/-- An engine is built from a well-formed table alone, and it is the step over that table. -/
theorem buildEngine_ok {rows : OpTable} {f : State → Result} :
    buildEngine rows = .ok f ↔ OpTable.wellFormed rows = true ∧ f = stepWith rows := by
  unfold buildEngine
  cases h : OpTable.construct rows with
  | ok t =>
    obtain ⟨hw, rfl⟩ := construct_ok.mp h
    simp [hw, eq_comm]
  | error e =>
    have hw : ¬ OpTable.wellFormed rows = true := fun hw => by
      rw [construct_ok.mpr ⟨hw, rfl⟩] at h
      cases h
    simp [hw]

/-- The skeleton always gives a next state: the effect, or the exception taken. -/
theorem perform_next {α : Type} (mn : Mnemonic) (len : Nat) (resolved : Except Exc α)
    (handler : α → State → Handled) (s : State) : ∃ t, perform mn len resolved handler s = .next t := by
  rcases perform_cases (rfl : perform mn len resolved handler s = _) with
    ⟨k, -, h⟩ | ⟨o, -, -, h⟩ | ⟨o, -, -, h⟩ <;> exact ⟨_, h⟩

/-- Every pair that R56 admits has a meaning: the handler is never turned away. -/
theorem execDecoded_next {d : Decoded} (h : admissible d.mnemonic d.mode = true) (s : State) :
    ∃ t, execDecoded d s = .next t := by
  obtain ⟨mn, mode, v⟩ := d
  cases mn <;> rcases mode with _ | _ | m <;> first | exact absurd h Bool.false_ne_true | skip
  all_goals
    simp only [execDecoded, withMode, withMemMode, execNop, execTax, execTxa, execTay, execTya, execInx,
      execDex, execIny, execDey, execPha, execPla, execRts, execJsrAbs, jump, load, store, compareOperand,
      performImplied, perform_next]

/-- The pairs the construction admits are those of the spec's list (R56). -/
theorem admissible_iff {mn : Mnemonic} {mode : Option Mode} :
    admissible mn mode = true ↔ mode ∈ admissibleModes mn := by
  cases mn <;> rcases mode with _ | _ | m <;> first | (cases m <;> decide) | decide

/-- Every load runs the shared operation in its mode, whatever the table. -/
theorem execDecoded_load {mn : Mnemonic} {r : Reg} (hr : loadedReg mn = some r) (m : Mode) (v : Word)
    (s : State) : execDecoded ⟨mn, some m, v⟩ s = load mn r m v s := by
  cases mn <;> cases hr <;> rfl

/-- Every store runs the shared operation in its mode, whatever the table. -/
theorem execDecoded_store {mn : Mnemonic} {r : Reg} (hr : storedReg mn = some r) (m : MemMode) (v : Word)
    (s : State) : execDecoded ⟨mn, some (.mem m), v⟩ s = store mn r m v s := by
  cases mn <;> cases hr <;> rfl

theorem execDecoded_compare (m : Mode) (v : Word) (s : State) :
    execDecoded ⟨.cmp, some m, v⟩ s = compareOperand m v s := rfl

end Sys2Proof.Machine
end

