-- ==== Sys2Proof/Laws/Safety.lean ====
section
/-! SUPPORT. The raise conditions of R72, in the spec's arithmetic, are what the resolver and the
successor check decide. -/

namespace Sys2Proof.Machine

theorem inRange_error_iff {n : Nat} : inRange n = .error .addressOutOfRange ↔ 0xFFFF < n := by
  refine ⟨fun h => ?_, inRange_eq_error⟩
  by_contra hn
  rw [inRange_eq_ok (by omega)] at h
  cases h

/-- The operand of a mode with one operand byte is a byte. -/
theorem operand_lt {i : Instr} {m : Option Mode} (hm : i.mode = m) (hl : modeLength m = 2) :
    i.operand.toNat < 256 := by
  cases i <;> cases hm <;>
    first
    | exact lt_of_eq_of_lt (zext_toNat _) (BitVec.isLt _)
    | simp [modeLength, Instr.mode] at hl

/-- Conditions 3 and 4 hold exactly when resolving the mode raises. -/
theorem addressOverflow_iff {i : Instr} {m : MemMode} (hm : i.mode = some (.mem m)) (s : State) :
    addressOverflow i.mode i.operand s ↔ effectiveAddress m i.operand s = .error .addressOutOfRange := by
  have hop := operand_lt hm
  rw [hm]
  cases m
  case absx => simp [addressOverflow, effectiveAddress, inRange_error_iff]
  case absy => simp [addressOverflow, effectiveAddress, inRange_error_iff]
  case indy =>
    simp only [addressOverflow, effectiveAddress, inRange_error_iff, zeroPagePointer_toNat, lowByte_toNat]
    rw [Nat.mod_eq_of_lt (hop rfl)]
  case ind =>
    simp only [addressOverflow, effectiveAddress, indTarget]
    by_cases h : i.operand.toNat % 256 = 0xFF
    · rw [indHighAt_pageEnd h]
      cases pageCross
      · by_cases hv : i.operand.toNat = 0xFFFF
        · simp [hv, inRange_eq_error]
        · rw [inRange_eq_ok (by have := i.operand.isLt; omega)]
          simp [hv]
      · simp
    · rw [indHighAt_inside h]
      have : i.operand.toNat ≠ 0xFFFF := by omega
      simp [this]
  all_goals simp [addressOverflow, effectiveAddress]

/-- Conditions 5 and 6 hold exactly when the successor check fails. -/
theorem successorOk_iff_not {mn : Mnemonic} {len : Nat} {s : State} :
    successorOk mn len s = true ↔ ¬ (mn ≠ .jmp ∧ mn ≠ .rts ∧ ¬ hasSuccessor len s) := by
  rw [successorOk_iff, hasSuccessor]
  tauto

/-- What the transactions call raised is what R72 calls so. -/
theorem raisedBy_isSome_iff (i : Instr) (s : State) :
    (raisedBy i s).isSome = true ↔ raiseCondition i s := by
  have key : (if successorOk i.mnemonic (instrLength i) s then (none : Option Exc)
      else some .addressOutOfRange).isSome = true ↔
      (i.mnemonic ≠ .jmp ∧ i.mnemonic ≠ .rts ∧ ¬ hasSuccessor (instrLength i) s) := by
    by_cases h : successorOk i.mnemonic (instrLength i) s = true
    · simpa [h] using successorOk_iff_not.mp h
    · rw [if_neg h]
      rw [successorOk_iff_not, not_not] at h
      simpa using h
  unfold raisedBy raiseCondition
  rcases hm : i.mode with _ | _ | m
  · simpa only [addressOverflow, false_or] using key
  · simpa only [addressOverflow, false_or, resolve] using key
  · rw [← hm, addressOverflow_iff hm s]
    cases he : effectiveAddress m i.operand s with
    | error k => simp [resolve, he, effectiveAddress_error he, hm]
    | ok ea => simpa only [hm, resolve, he, reduceCtorEq, false_or] using key

end Sys2Proof.Machine
end

