-- ==== Sys2Proof/Tests/Slice0.lean ====
section
/-! SUPPORT. The model's own tests. Expected results come from the spec: the encodings of
30_encoding.md R54 and the vectors of 95_test_vectors.md, named in each comment. Each run is one step
on a small state. The last part shows, for every obligation with hypotheses, that they can be met. -/

namespace Sys2Proof.Tests

open Sys2Proof Sys2Proof.Machine

/-! ### Small states -/

/-- Memory that holds the listed bytes. -/
def memOf (cells : List (Nat × Byte)) : Memory := cells.foldl (fun m c => m.write c.1 c.2) Memory.empty

/-- The start of most vectors: flags false, SP = FF, PC = 0400. -/
def start : State := { State.reset with pc := 0x0400 }

/-- The start with some bytes in memory. -/
def startWith (cells : List (Nat × Byte)) : State := { start with mem := memOf cells }

/-- A state with instruction bytes placed at PC. -/
def State.put (s : State) (bytes : List Byte) : State := { s with mem := s.mem.writeList s.pc.toNat bytes }

/-- What a reader sees after one step of the instruction bytes at PC. -/
def after {α : Type} (bytes : List Byte) (s : State) (look : State → α) : Option α :=
  (nextState (step (State.put s bytes))).map look

/-- C, Z and N, as the vectors of family CP list them. -/
def czn (s : State) : Bool × Bool × Bool := (s.flags.c, s.flags.z, s.flags.n)

/-- The flags N and C set, Z clear. -/
def flagsNC : Flags := { Flags.clear with n := true, c := true }

/-! ### Well-formedness refuses ill-formed terms (R56) -/

/-- OPTABLE meets R56. -/
theorem test_optable_wellFormed : OpTable.wellFormed optable = true := by decide

/-- R54: 54 rows. -/
theorem test_optable_rows : optable.length = 54 := by decide

/-- R56 (a) refuses two rows with one opcode byte, though each is in order on its own. -/
theorem test_wellFormed_refuses_duplicate_opcode :
    OpTable.opcodesDistinct [⟨0xEA, .nop, none, 1⟩, ⟨0xEA, .tax, none, 1⟩] = false ∧
    OpTable.wellFormed [⟨0xEA, .nop, none, 1⟩, ⟨0xEA, .tax, none, 1⟩] = false := by decide

/-- R56 (b) refuses a length that is not the mode's. -/
theorem test_wellFormed_refuses_wrong_length :
    OpTable.lengthsMatch [⟨0xA9, .lda, some .imm, 3⟩] = false ∧
    OpTable.wellFormed [⟨0xA9, .lda, some .imm, 3⟩] = false := by decide

/-- R56 (c) refuses a pair the spec gives no meaning: STA imm. -/
theorem test_wellFormed_refuses_inadmissible_pair :
    OpTable.pairsAdmissible [⟨0x89, .sta, some .imm, 2⟩] = false ∧
    OpTable.wellFormed [⟨0x89, .sta, some .imm, 2⟩] = false := by decide

/-- An instruction is ill formed over a table without a row for it, and well formed over OPTABLE. -/
theorem test_instr_wellFormedIn_refuses_missing_row :
    (Instr.ldaImm 5).wellFormedIn [⟨0xEA, .nop, none, 1⟩] = false ∧
    (Instr.ldaImm 5).wellFormed = true := by decide

/-- A table that gives an opcode to a pair R54 has none for. -/
def ldxTable : OpTable := [⟨0x02, .ldx, some (.mem .absx), 3⟩]

/-- R167 on an engine built from such a table: X is the index and the destination. -/
theorem test_built_engine_ldx_absx :
    (nextState (stepWith ldxTable
        (State.put { startWith [(0x1300, 0x42)] with x := 0x01 } [0x02, 0xFF, 0x12]))).map
      (fun t => (t.x, t.pc)) = some (0x42, 0x0403) := by decide

/-- S5 on the same engine: OPTABLE's opcodes are undefined in it. -/
theorem test_built_engine_undefined :
    (nextState (stepWith ldxTable (State.put start [0xEA]))).map (fun t => (t.st, t.pc)) =
      some (.halted .invalidOpcode, 0x0400) := by decide

/-! ### Decoding: every row's word, written out from R54 -/

theorem test_decode_transfers :
    decode [0xEA] = .ok (.nop, []) ∧
    decode [0xAA] = .ok (.tax, []) ∧
    decode [0x8A] = .ok (.txa, []) ∧
    decode [0xA8] = .ok (.tay, []) ∧
    decode [0x98] = .ok (.tya, []) ∧
    decode [0xE8] = .ok (.inx, []) ∧
    decode [0xCA] = .ok (.dex, []) ∧
    decode [0xC8] = .ok (.iny, []) ∧
    decode [0x88] = .ok (.dey, []) := by decide

theorem test_decode_control :
    decode [0x48] = .ok (.pha, []) ∧
    decode [0x68] = .ok (.pla, []) ∧
    decode [0x4C, 0x34, 0x12] = .ok (.jmpAbs 0x1234, []) ∧
    decode [0x6C, 0x34, 0x12] = .ok (.jmpInd 0x1234, []) ∧
    decode [0x20, 0x34, 0x12] = .ok (.jsrAbs 0x1234, []) ∧
    decode [0x60] = .ok (.rts, []) := by decide

theorem test_decode_cmp :
    decode [0xC9, 0xF1] = .ok (.cmpImm 0xF1, []) ∧
    decode [0xC5, 0xF1] = .ok (.cmpZpg 0xF1, []) ∧
    decode [0xD5, 0xF1] = .ok (.cmpZpgx 0xF1, []) ∧
    decode [0xCD, 0x34, 0x12] = .ok (.cmpAbs 0x1234, []) ∧
    decode [0xDD, 0x34, 0x12] = .ok (.cmpAbsx 0x1234, []) ∧
    decode [0xD9, 0x34, 0x12] = .ok (.cmpAbsy 0x1234, []) ∧
    decode [0xC1, 0xF1] = .ok (.cmpIndx 0xF1, []) ∧
    decode [0xD1, 0xF1] = .ok (.cmpIndy 0xF1, []) := by decide

theorem test_decode_lda :
    decode [0xA9, 0xF1] = .ok (.ldaImm 0xF1, []) ∧
    decode [0xA5, 0xF1] = .ok (.ldaZpg 0xF1, []) ∧
    decode [0xB5, 0xF1] = .ok (.ldaZpgx 0xF1, []) ∧
    decode [0xAD, 0x34, 0x12] = .ok (.ldaAbs 0x1234, []) ∧
    decode [0xBD, 0x34, 0x12] = .ok (.ldaAbsx 0x1234, []) ∧
    decode [0xB9, 0x34, 0x12] = .ok (.ldaAbsy 0x1234, []) ∧
    decode [0xA1, 0xF1] = .ok (.ldaIndx 0xF1, []) ∧
    decode [0xB1, 0xF1] = .ok (.ldaIndy 0xF1, []) := by decide

theorem test_decode_ldx_ldy :
    decode [0xA2, 0xF1] = .ok (.ldxImm 0xF1, []) ∧
    decode [0xA6, 0xF1] = .ok (.ldxZpg 0xF1, []) ∧
    decode [0xB6, 0xF1] = .ok (.ldxZpgy 0xF1, []) ∧
    decode [0xAE, 0x34, 0x12] = .ok (.ldxAbs 0x1234, []) ∧
    decode [0xBE, 0x34, 0x12] = .ok (.ldxAbsy 0x1234, []) ∧
    decode [0xA0, 0xF1] = .ok (.ldyImm 0xF1, []) ∧
    decode [0xA4, 0xF1] = .ok (.ldyZpg 0xF1, []) ∧
    decode [0xB4, 0xF1] = .ok (.ldyZpgx 0xF1, []) ∧
    decode [0xAC, 0x34, 0x12] = .ok (.ldyAbs 0x1234, []) ∧
    decode [0xBC, 0x34, 0x12] = .ok (.ldyAbsx 0x1234, []) := by decide

theorem test_decode_sta :
    decode [0x85, 0xF1] = .ok (.staZpg 0xF1, []) ∧
    decode [0x95, 0xF1] = .ok (.staZpgx 0xF1, []) ∧
    decode [0x8D, 0x34, 0x12] = .ok (.staAbs 0x1234, []) ∧
    decode [0x9D, 0x34, 0x12] = .ok (.staAbsx 0x1234, []) ∧
    decode [0x99, 0x34, 0x12] = .ok (.staAbsy 0x1234, []) ∧
    decode [0x81, 0xF1] = .ok (.staIndx 0xF1, []) ∧
    decode [0x91, 0xF1] = .ok (.staIndy 0xF1, []) := by decide

theorem test_decode_stx_sty :
    decode [0x86, 0xF1] = .ok (.stxZpg 0xF1, []) ∧
    decode [0x96, 0xF1] = .ok (.stxZpgy 0xF1, []) ∧
    decode [0x8E, 0x34, 0x12] = .ok (.stxAbs 0x1234, []) ∧
    decode [0x84, 0xF1] = .ok (.styZpg 0xF1, []) ∧
    decode [0x94, 0xF1] = .ok (.styZpgx 0xF1, []) ∧
    decode [0x8C, 0x34, 0x12] = .ok (.styAbs 0x1234, []) := by decide

/-- DC7, DC8 and R57: an undefined opcode is named, whatever follows; missing operand bytes are not
taken as zero. -/
theorem test_decode_refuses :
    decode [0x00, 0xA9, 0x05] = .error (.invalidOpcode 0x00) ∧
    decode [0xA7, 0x10] = .error (.invalidOpcode 0xA7) ∧
    decode [0xFF] = .error (.invalidOpcode 0xFF) ∧
    decode [0xA9] = .error .truncated ∧ decode [0xAD, 0x00] = .error .truncated := by decide

/-- The bytes after an instruction are left over (R50, R53). -/
theorem test_decode_leaves_rest :
    decode [0xA9, 0x05, 0xAA] = .ok (.ldaImm 0x05, [0xAA]) ∧
    decode [0xEA, 0x05, 0xAA] = .ok (.nop, [0x05, 0xAA]) := by decide

/-- The table's numbering: bit 0 is the least significant bit of the first byte; above `nbits` zero. -/
theorem test_decodeTableWord :
    decodeTableWord 8 0xEA = some .nop ∧ decodeTableWord 16 0x05A9 = some (.ldaImm 0x05) ∧
    decodeTableWord 24 0x0220BD = some (.ldaAbsx 0x0220) ∧
    decodeTableWord 8 0xBD = some (.ldaAbsx 0) ∧ decodeTableWord 8 0x05A9 = some (.ldaImm 0) ∧
    decodeTableWord 8 0x00 = none := by decide

/-- A word placed by `withFetchWord` is what the next step fetches, from reset and at the top of
memory, where the bytes above 0xFFFF are dropped. -/
theorem test_withFetchWord :
    fetchDecode (State.reset.withFetchWord 24 0x0220BD) = .ok (.ldaAbsx 0x0220) ∧
    fetchDecode (State.reset.withFetchWord 8 0x6C) = .ok (.jmpInd 0) ∧
    fetchDecode ({ start with pc := 0xFFFF }.withFetchWord 8 0xEA) = .ok .nop ∧
    fetchDecode ({ start with pc := 0xFFFF }.withFetchWord 16 0x05A9) = .error .truncated := by decide

/-! ### One step: no memory operand (families T, K, J) -/

/-- T1. -/
theorem test_nop :
    after [0xEA] { start with a := 0x12, x := 0x34, y := 0x56, sp := 0x78 }
      (fun t => (t.a, t.x, t.y, t.sp, t.pc)) = some (0x12, 0x34, 0x56, 0x78, 0x0401) := by decide

/-- E3: the successor does not exist. -/
theorem test_nop_at_top :
    after [0xEA] { start with pc := 0xFFFF }
      (fun t => (t.st, t.pc)) = some (.halted .addressOutOfRange, 0xFFFF) := by decide

/-- T3: Z stays 0. -/
theorem test_tax :
    after [0xAA] { start with x := 0x55 }
      (fun t => (t.x, t.flags, t.pc)) = some (0x00, Flags.clear, 0x0401) := by decide

/-- T15: flags left by an earlier CMP stay. -/
theorem test_txa :
    after [0x8A] { start with x := 0x9C, flags := flagsNC }
      (fun t => (t.a, t.x, t.flags)) = some (0x9C, 0x9C, flagsNC) := by decide

/-- T5. -/
theorem test_tay :
    after [0xA8] { start with a := 0xFF }
      (fun t => (t.y, t.a, t.flags.n)) = some (0xFF, 0xFF, false) := by decide

/-- T6. -/
theorem test_tya :
    after [0x98] { start with y := 0x01, a := 0xEE }
      (fun t => (t.a, t.y)) = some (0x01, 0x01) := by decide

/-- T7. -/
theorem test_inx :
    after [0xE8] { start with x := 0x41 }
      (fun t => (t.x, t.pc)) = some (0x42, 0x0401) := by decide

/-- T8. -/
theorem test_inx_wraps :
    after [0xE8] { start with x := 0xFF }
      (fun t => (t.x, t.flags)) = some (0x00, Flags.clear) := by decide

/-- T9. -/
theorem test_dex :
    after [0xCA] { start with x := 0x01 }
      (fun t => (t.x, t.flags)) = some (0x00, Flags.clear) := by decide

/-- T10. -/
theorem test_dex_wraps :
    after [0xCA] { start with x := 0x00 }
      (fun t => (t.x, t.flags)) = some (0xFF, Flags.clear) := by decide

/-- T11. -/
theorem test_iny :
    after [0xC8] { start with y := 0x7F }
      (fun t => (t.y, t.flags)) = some (0x80, Flags.clear) := by decide

/-- T12. -/
theorem test_iny_wraps :
    after [0xC8] { start with y := 0xFF }
      (fun t => (t.y, t.x)) = some (0x00, 0x00) := by decide

/-- T14. -/
theorem test_dey :
    after [0x88] { start with y := 0x80 }
      (fun t => (t.y, t.pc)) = some (0x7F, 0x0401) := by decide

/-- T13. -/
theorem test_dey_wraps :
    after [0x88] { start with y := 0x00 }
      (fun t => (t.y, t.x)) = some (0xFF, 0x00) := by decide

/-- K1. -/
theorem test_pha :
    after [0x48] { start with a := 0x42 }
      (fun t => (t.mem.read 0x01FF, t.sp, t.a)) = some (0x42, 0xFE, 0x42) := by decide

/-- K3. -/
theorem test_pha_wraps :
    after [0x48] { start with a := 0x42, sp := 0x00 }
      (fun t => (t.mem.read 0x0100, t.sp, t.st)) = some (0x42, 0xFF, .running) := by decide

/-- K2. -/
theorem test_pla :
    after [0x68] { startWith [(0x01FF, 0x42)] with sp := 0xFE }
      (fun t => (t.a, t.sp, t.mem.read 0x01FF)) = some (0x42, 0xFF, 0x42) := by decide

/-- K4: reads 0100, not 0200. -/
theorem test_pla_wraps :
    after [0x68] { startWith [(0x0100, 0x99)] with sp := 0xFF }
      (fun t => (t.a, t.sp)) = some (0x99, 0x00) := by decide

/-- J1. -/
theorem test_jmpAbs :
    after [0x4C, 0x34, 0x12] start
      (fun t => (t.pc, t.sp)) = some (0x1234, 0xFF) := by decide

/-- J8: no successor check. -/
theorem test_jmpAbs_at_top :
    after [0x4C, 0x00, 0x03] { start with pc := 0xFFFD }
      (fun t => (t.pc, t.st)) = some (0x0300, .running) := by decide

/-- A12. -/
theorem test_jmpInd :
    after [0x6C, 0x40, 0x00] (startWith [(0x0040, 0x12), (0x0041, 0x02)])
      (fun t => (t.pc, t.sp)) = some (0x0212, 0xFF) := by decide

/-- A13 and A14, under both settings of JMP_IND_PAGE_CROSS. -/
theorem test_jmpInd_page_cross :
    indTarget .carry 0x02FF (startWith [(0x02FF, 0x34), (0x0300, 0x12), (0x0200, 0x56)]) = .ok 0x1234 ∧
    indTarget .samePage 0x02FF (startWith [(0x02FF, 0x34), (0x0300, 0x12), (0x0200, 0x56)]) = .ok 0x5634 ∧
    indTarget .carry 0xFFFF (startWith [(0xFFFF, 0x34), (0xFF00, 0x12)]) = .error .addressOutOfRange ∧
    indTarget .samePage 0xFFFF (startWith [(0xFFFF, 0x34), (0xFF00, 0x12)]) = .ok 0x1234 := by decide

/-- J4: the stack pointer wraps between the two pushes. -/
theorem test_jsrAbs :
    after [0x20, 0x34, 0x12] { start with sp := 0x00 }
      (fun t => (t.mem.read 0x0100, t.mem.read 0x01FF, t.sp, t.pc)) = some (0x04, 0x03, 0xFE, 0x1234) := by decide

/-- J5. -/
theorem test_rts :
    after [0x60] { startWith [(0x01FE, 0x05), (0x01FF, 0x02)] with sp := 0xFD }
      (fun t => (t.pc, t.sp)) = some (0x0205, 0xFF) := by decide

/-- J6. -/
theorem test_rts_wraps :
    after [0x60] { startWith [(0x01FF, 0x05), (0x0100, 0x02)] with sp := 0xFE }
      (fun t => (t.pc, t.sp)) = some (0x0205, 0x00) := by decide

/-! ### One step: CMP (family CP) -/

/-- CP5: Z and N both true. -/
theorem test_cmpImm :
    after [0xC9, 0x80] { start with a := 0x80 }
      (fun t => (czn t, t.a, t.pc)) = some ((true, true, true), 0x80, 0x0402) := by decide

/-- CP4: N is bit 7 of A, not of the difference. -/
theorem test_cmpImm_less :
    after [0xC9, 0x0B] { start with a := 0x0A }
      (fun t => (czn t, t.a, t.pc)) = some ((false, false, false), 0x0A, 0x0402) := by decide

/-- CP12. -/
theorem test_cmpZpg :
    after [0xC5, 0x10] { startWith [(0x0010, 0x06)] with a := 0x05 }
      (fun t => (czn t, t.a, t.pc)) = some ((false, false, false), 0x05, 0x0402) := by decide

/-- CP13. -/
theorem test_cmpZpgx :
    after [0xD5, 0xF0] { startWith [(0x0010, 0x7F)] with a := 0x7F, x := 0x20 }
      (fun t => (czn t, t.a, t.pc)) = some ((true, true, false), 0x7F, 0x0402) := by decide

/-- CP14. -/
theorem test_cmpAbs :
    after [0xCD, 0x34, 0x12] { startWith [(0x1234, 0x8F)] with a := 0x90 }
      (fun t => (czn t, t.a, t.pc)) = some ((true, false, true), 0x90, 0x0403) := by decide

/-- CP15. -/
theorem test_cmpAbsx :
    after [0xDD, 0xFF, 0x12] { startWith [(0x1300, 0x42)] with a := 0x41, x := 0x01 }
      (fun t => (czn t, t.a, t.pc)) = some ((false, false, false), 0x41, 0x0403) := by decide

/-- CP19: no flag is written by a step that raises. -/
theorem test_cmpAbsx_raises :
    after [0xDD, 0xFF, 0xFF] { start with x := 0x01, flags := flagsNC }
      (fun t => (t.flags, t.st, t.pc)) = some (flagsNC, .halted .addressOutOfRange, 0x0400) := by decide

/-- CP16. -/
theorem test_cmpAbsy :
    after [0xD9, 0x00, 0x03] { startWith [(0x0306, 0x21)] with a := 0x21, y := 0x06 }
      (fun t => (czn t, t.a, t.pc)) = some ((true, true, false), 0x21, 0x0403) := by decide

/-- CP17. -/
theorem test_cmpIndx :
    after [0xC1, 0xF0] { startWith [(0x00FF, 0x34), (0x0000, 0x12), (0x1234, 0xAB)] with a := 0xAB, x := 0x0F }
      (fun t => (czn t, t.a, t.pc)) = some ((true, true, true), 0xAB, 0x0402) := by decide

/-- CP18. -/
theorem test_cmpIndy :
    after [0xD1, 0xFF] { startWith [(0x00FF, 0x34), (0x0000, 0x12), (0x1239, 0xCD)] with a := 0xAB, y := 0x05 }
      (fun t => (czn t, t.a, t.pc)) = some ((false, false, true), 0xAB, 0x0402) := by decide

/-! ### One step: loads and stores (families A, L, E) -/

/-- L2: N stays 0. -/
theorem test_ldaImm :
    after [0xA9, 0x80] start
      (fun t => (t.a, t.flags, t.pc)) = some (0x80, Flags.clear, 0x0402) := by decide

/-- E4b: both bytes are in memory, the successor is not. -/
theorem test_ldaImm_at_top :
    after [0xA9, 0x07] { start with pc := 0xFFFE }
      (fun t => (t.a, t.st, t.pc)) = some (0x00, .halted .addressOutOfRange, 0xFFFE) := by decide

/-- A2. -/
theorem test_ldaZpg :
    after [0xA5, 0x10] (startWith [(0x0010, 0x5A)])
      (fun t => (t.a, t.pc)) = some (0x5A, 0x0402) := by decide

/-- A3: 0010, not 0110. -/
theorem test_ldaZpgx :
    after [0xB5, 0xF0] { startWith [(0x0010, 0x5A), (0x0110, 0xEE)] with x := 0x20 }
      (fun t => (t.a, t.pc)) = some (0x5A, 0x0402) := by decide

/-- E5c: the highest PC a step that is no control flow leaves. -/
theorem test_ldaAbs :
    after [0xAD, 0x00, 0x03] { startWith [(0x0300, 0x07)] with pc := 0xFFFC }
      (fun t => (t.a, t.pc, t.st)) = some (0x07, 0xFFFF, .running) := by decide

/-- A6. -/
theorem test_ldaAbsx :
    after [0xBD, 0xFF, 0x12] { startWith [(0x1300, 0x42)] with x := 0x01 }
      (fun t => (t.a, t.pc)) = some (0x42, 0x0403) := by decide

/-- A7. -/
theorem test_ldaAbsx_raises :
    after [0xBD, 0xFF, 0xFF] { start with x := 0x01, a := 0x33 }
      (fun t => (t.a, t.st, t.pc)) = some (0x33, .halted .addressOutOfRange, 0x0400) := by decide

/-- A15. -/
theorem test_ldaAbsy :
    after [0xB9, 0x00, 0x03] { startWith [(0x0306, 0x21)] with y := 0x06 }
      (fun t => (t.a, t.pc)) = some (0x21, 0x0403) := by decide

/-- A9: the pointer straddles 00FF and 0000. -/
theorem test_ldaIndx :
    after [0xA1, 0xFE] { startWith [(0x00FF, 0x34), (0x0000, 0x12), (0x0100, 0xEE), (0x1234, 0xAB)] with x := 0x01 }
      (fun t => (t.a, t.pc)) = some (0xAB, 0x0402) := by decide

/-- E8: a pointer to FFFF is in range. -/
theorem test_ldaIndx_top :
    after [0xA1, 0xFF] { startWith [(0x0000, 0xFF), (0x0001, 0xFF), (0xFFFF, 0x3C)] with x := 0x01 }
      (fun t => (t.a, t.st)) = some (0x3C, .running) := by decide

/-- A10. -/
theorem test_ldaIndy :
    after [0xB1, 0xFF] { startWith [(0x00FF, 0xFF), (0x0000, 0x12), (0x0100, 0xEE), (0x1301, 0x6D)] with y := 0x02 }
      (fun t => (t.a, t.pc)) = some (0x6D, 0x0402) := by decide

/-- A11. -/
theorem test_ldaIndy_raises :
    after [0xB1, 0x40] { startWith [(0x0040, 0xF0), (0x0041, 0xFF)] with y := 0x10, a := 0x33 }
      (fun t => (t.a, t.st, t.pc)) = some (0x33, .halted .addressOutOfRange, 0x0400) := by decide

/-- L3. -/
theorem test_ldxImm :
    after [0xA2, 0x00] { start with x := 0x11, flags := flagsNC }
      (fun t => (t.x, t.flags)) = some (0x00, flagsNC) := by decide

/-- L6. -/
theorem test_ldxZpg :
    after [0xA6, 0x10] (startWith [(0x0010, 0x06)])
      (fun t => (t.x, t.pc)) = some (0x06, 0x0402) := by decide

/-- A4: 0003, not 0103. -/
theorem test_ldxZpgy :
    after [0xB6, 0xFE] { startWith [(0x0003, 0x77), (0x0103, 0xEE)] with y := 0x05 }
      (fun t => (t.x, t.pc)) = some (0x77, 0x0402) := by decide

/-- L7. -/
theorem test_ldxAbs :
    after [0xAE, 0x34, 0x12] (startWith [(0x1234, 0xAB)])
      (fun t => (t.x, t.pc)) = some (0xAB, 0x0403) := by decide

/-- L8. -/
theorem test_ldxAbsy :
    after [0xBE, 0xFF, 0x12] { startWith [(0x1300, 0x42)] with y := 0x01 }
      (fun t => (t.x, t.pc)) = some (0x42, 0x0403) := by decide

/-- L4. -/
theorem test_ldyImm :
    after [0xA0, 0xFF] start
      (fun t => (t.y, t.flags)) = some (0xFF, Flags.clear) := by decide

/-- L10. -/
theorem test_ldyZpg :
    after [0xA4, 0x10] (startWith [(0x0010, 0x06)])
      (fun t => (t.y, t.pc)) = some (0x06, 0x0402) := by decide

/-- L11. -/
theorem test_ldyZpgx :
    after [0xB4, 0xF0] { startWith [(0x0010, 0x5A)] with x := 0x20 }
      (fun t => (t.y, t.pc)) = some (0x5A, 0x0402) := by decide

/-- L12. -/
theorem test_ldyAbs :
    after [0xAC, 0x34, 0x12] (startWith [(0x1234, 0xAB)])
      (fun t => (t.y, t.pc)) = some (0xAB, 0x0403) := by decide

/-- L13. -/
theorem test_ldyAbsx :
    after [0xBC, 0xFF, 0x12] { startWith [(0x1300, 0x42)] with x := 0x01 }
      (fun t => (t.y, t.pc)) = some (0x42, 0x0403) := by decide

/-- L17. -/
theorem test_staZpg :
    after [0x85, 0x41] { start with a := 0x02 }
      (fun t => (t.mem.read 0x0041, t.a, t.pc)) = some (0x02, 0x02, 0x0402) := by decide

/-- L18: 0010, not 0110. -/
theorem test_staZpgx :
    after [0x95, 0xF0] { start with a := 0x5A, x := 0x20 }
      (fun t => (t.mem.read 0x0010, t.mem.read 0x0110)) = some (0x5A, 0x00) := by decide

/-- L19. -/
theorem test_staAbs :
    after [0x8D, 0x00, 0x03] { start with a := 0x7E }
      (fun t => (t.mem.read 0x0300, t.pc)) = some (0x7E, 0x0403) := by decide

/-- L20. -/
theorem test_staAbsx :
    after [0x9D, 0x00, 0x03] { start with a := 0x05, x := 0x06 }
      (fun t => (t.mem.read 0x0306, t.pc)) = some (0x05, 0x0403) := by decide

/-- L32: nothing is written, in particular not M[0000]. -/
theorem test_staAbsx_raises :
    after [0x9D, 0xFF, 0xFF] { start with a := 0x11, x := 0x01 }
      (fun t => (t.mem.read 0x0000, t.st, t.pc)) = some (0x00, .halted .addressOutOfRange, 0x0400) := by decide

/-- L21. -/
theorem test_staAbsy :
    after [0x99, 0x00, 0x03] { start with a := 0x05, y := 0xFF }
      (fun t => (t.mem.read 0x03FF, t.pc)) = some (0x05, 0x0403) := by decide

/-- L22. -/
theorem test_staIndx :
    after [0x81, 0xF0] { startWith [(0x00FF, 0x34), (0x0000, 0x12)] with a := 0xAB, x := 0x0F }
      (fun t => (t.mem.read 0x1234, t.pc)) = some (0xAB, 0x0402) := by decide

/-- A16: the pointer is read before it is overwritten. -/
theorem test_staIndx_own_pointer :
    after [0x81, 0x10] { startWith [(0x0010, 0x10)] with a := 0x77, pc := 0x0300 }
      (fun t => (t.mem.read 0x0010, t.pc)) = some (0x77, 0x0302) := by decide

/-- L23. -/
theorem test_staIndy :
    after [0x91, 0xFF] { startWith [(0x00FF, 0x34), (0x0000, 0x12)] with a := 0xAB, y := 0x05 }
      (fun t => (t.mem.read 0x1239, t.pc)) = some (0xAB, 0x0402) := by decide

/-- L24. -/
theorem test_stxZpg :
    after [0x86, 0x10] { start with x := 0x06 }
      (fun t => (t.mem.read 0x0010, t.pc)) = some (0x06, 0x0402) := by decide

/-- L25. -/
theorem test_stxZpgy :
    after [0x96, 0xFE] { start with x := 0x77, y := 0x05 }
      (fun t => (t.mem.read 0x0003, t.mem.read 0x0103)) = some (0x77, 0x00) := by decide

/-- L26. -/
theorem test_stxAbs :
    after [0x8E, 0x00, 0x03] { start with x := 0x77 }
      (fun t => (t.mem.read 0x0300, t.pc)) = some (0x77, 0x0403) := by decide

/-- L27. -/
theorem test_styZpg :
    after [0x84, 0x10] { start with y := 0x03 }
      (fun t => (t.mem.read 0x0010, t.pc)) = some (0x03, 0x0402) := by decide

/-- L28. -/
theorem test_styZpgx :
    after [0x94, 0xF0] { start with y := 0x03, x := 0x20 }
      (fun t => (t.mem.read 0x0010, t.mem.read 0x0110)) = some (0x03, 0x00) := by decide

/-- L29. -/
theorem test_styAbs :
    after [0x8C, 0x00, 0x03] { start with y := 0x03 }
      (fun t => (t.mem.read 0x0300, t.pc)) = some (0x03, 0x0403) := by decide

/-! ### Exceptions, reset, transactions (families E, I; R91) -/

/-- E1. -/
theorem test_invalidOpcode :
    after [0x00] { start with pc := 0x0207, a := 0x80, x := 0x11 }
      (fun t => (t.st, t.pc, t.a, t.x)) = some (.halted .invalidOpcode, 0x0207, 0x80, 0x11) := by decide

/-- E2: decided from the opcode byte alone. -/
theorem test_invalidOpcode_at_top :
    after [0xFF] { start with pc := 0xFFFF }
      (fun t => (t.st, t.pc)) = some (.halted .invalidOpcode, 0xFFFF) := by decide

/-- E5: the third byte would be at 10000. -/
theorem test_operand_at_top :
    after [0xAD, 0x00] { start with pc := 0xFFFE }
      (fun t => (t.st, t.pc)) = some (.halted .addressOutOfRange, 0xFFFE) := by decide

/-- J7: nothing is pushed. -/
theorem test_jsrAbs_at_top :
    after [0x20, 0x00, 0x03] { start with pc := 0xFFFD }
      (fun t => (t.st, t.sp, t.mem.read 0x01FF)) = some (.halted .addressOutOfRange, 0xFF, 0x00) := by decide

/-- E6: a halted engine makes no step. -/
theorem test_halted_makes_no_step :
    step { start with st := .halted .invalidOpcode } = .fault (.halted .invalidOpcode) := by rfl

/-- I2: the vector, SP, the flags; memory stays. -/
theorem test_reset_event :
    let t := applyReset 1 2 3 { startWith [(0xFFFC, 0x34), (0xFFFD, 0x12), (0x0180, 0x55)] with
      sp := 0x80, flags := flagsNC, st := .halted .addressOutOfRange }
    (t.pc, t.sp, t.flags, t.st, t.mem.read 0x0180) = (0x1234, 0xFF, Flags.clear, .running, 0x55) := by decide

/-- R91 on L23: the opcode, the operand, the two pointer bytes, the store. -/
theorem test_transactions_staIndy :
    transactions (State.put { startWith [(0x00FF, 0x34), (0x0000, 0x12)] with a := 0xAB, y := 0x05 }
        [0x91, 0xFF]) =
      [.read 0x0400, .read 0x0401, .read 0x00FF, .read 0x0000, .write 0x1239 0xAB] := by decide

/-- R46 on L23: memory answers each read with M[addr], the write with nothing. -/
theorem test_replies_staIndy :
    let s := State.put { startWith [(0x00FF, 0x34), (0x0000, 0x12)] with a := 0xAB, y := 0x05 } [0x91, 0xFF]
    replies s.mem (transactions s) = [some 0x91, some 0xFF, some 0x34, some 0x12, none] := by decide

/-- R46 and R210: the vector, low byte first. -/
theorem test_transactions_reset : resetTransactions = [.read 0xFFFC, .read 0xFFFD] := by decide

/-- R55: of an undefined opcode no other byte is read. -/
theorem test_transactions_undefined :
    transactions (State.put start [0xA7, 0x10]) = [.read 0x0400] := by decide

/-! ### Witnesses: for every obligation with hypotheses, a state that meets them all together -/

/-- The highest address at which an instruction of a length still has a successor, and one above. -/
def lastPc (len : Nat) : State := { start with pc := BitVec.ofNat 16 (0xFFFF - len) }
def pastLastPc (len : Nat) : State := { start with pc := BitVec.ofNat 16 (0x10000 - len) }

theorem witness_DecodeInvertsEncode :
    (OpTable.wellFormed optable = true ∧ (Instr.ldaAbs 0x1234).decoded.operandFits = true ∧
      encodeWith optable (Instr.ldaAbs 0x1234).decoded = some [0xAD, 0x34, 0x12]) ∧
    (OpTable.wellFormed ldxTable = true ∧ (⟨.ldx, some (.mem .absx), 0xFFFE⟩ : Decoded).operandFits = true ∧
      encodeWith ldxTable ⟨.ldx, some (.mem .absx), 0xFFFE⟩ = some [0x02, 0xFE, 0xFF]) := by decide

theorem witness_EncodeInvertsDecode :
    decode [0xAD, 0x34, 0x12, 0xEA] = .ok (.ldaAbs 0x1234, [0xEA]) := by decide

theorem witness_OpcodeByteFixesInstructionShape :
    OpTable.wellFormed optable = true ∧
    decodeWith optable (0xA9 :: [0x05]) = .ok (⟨.lda, some .imm, 0x05⟩, []) ∧
    decodeWith optable (0xA9 :: [0xFF, 0x00]) = .ok (⟨.lda, some .imm, 0xFF⟩, [0x00]) := by decide

theorem witness_OperandBytesAreLittleEndian :
    (decode [0xEA, 0x34, 0x12] = .ok (.nop, [0x34, 0x12]) ∧ instrLength .nop = 1) ∧
    (decode [0xA9, 0xFF, 0x12] = .ok (.ldaImm 0xFF, [0x12]) ∧ instrLength (.ldaImm 0xFF) = 2) ∧
    (decode [0xAD, 0xFF, 0xFE] = .ok (.ldaAbs 0xFEFF, []) ∧ instrLength (.ldaAbs 0xFEFF) = 3) := by
  decide

/-- For NopOnlyAdvancesPc, TransfersCopyOneRegister, IncrementsAndDecrementsWrap and
PhaAndPlaMoveTheAccumulator: both clauses, at the two highest addresses. -/
theorem witness_oneByteInstructions : hasSuccessor 1 (lastPc 1) ∧ ¬ hasSuccessor 1 (pastLastPc 1) := by
  unfold hasSuccessor; decide

/-- For IncrementThenDecrementRestores and PhaThenPlaRestoresAccumulator. -/
theorem witness_twoInstructions : hasSuccessor 2 (lastPc 2) := by unfold hasSuccessor; decide

/-- For StackIsRingInPageOne: the addresses next to page 1. -/
theorem witness_StackIsRingInPageOne :
    (0x00FF : Word).toNat < 0x0100 ∧ 0x01FF < (0x0200 : Word).toNat := by decide

/-- For JmpSetsPcAlone and IndirectJumpTarget: a pointer inside a page, at the end of one, and at the
end of memory. -/
theorem witness_indirectJumps :
    (0x02FE : Word).toNat % 256 ≠ 0xFF ∧
    ((0x02FF : Word).toNat % 256 = 0xFF ∧ (0x02FF : Word).toNat ≠ 0xFFFF) ∧
    ((0xFFFF : Word).toNat % 256 = 0xFF ∧ (0xFFFF : Word).toNat = 0xFFFF) := by decide

theorem witness_JsrPushesReturnAddress : hasSuccessor 3 (lastPc 3) ∧ ¬ hasSuccessor 3 (pastLastPc 3) := by
  unfold hasSuccessor; decide

theorem witness_JsrThenRtsReturns :
    (lastPc 3).pc.toNat ≤ 0xFFFC ∧
    ∃ t, exec (.jsrAbs 0x0300) (lastPc 3) = .next t ∧ t.sp = (lastPc 3).sp - 2 ∧
      t.readByte (stackAddr (lastPc 3).sp) = 0xFF ∧ t.readByte (stackAddr ((lastPc 3).sp - 1)) = 0xFF :=
  ⟨by decide, _, rfl, by decide, by decide, by decide⟩

/-- Indexed by X = 1 from FFFF, the address does not exist; from FFFE it is the last one. -/
def indexed : State := { lastPc 3 with x := 0x01, y := 0x01 }

theorem witness_CmpSetsCarryZeroNegative :
    (Instr.cmpAbsx 0xFFFE).mnemonic = .cmp ∧ (Instr.cmpAbsx 0xFFFE).mode = some (.mem .absx) ∧
    resolve (.mem .absx) 0xFFFE indexed = .ok (.address 0xFFFF) ∧
    resolve (.mem .absx) 0xFFFF indexed = .error .addressOutOfRange ∧
    resolve (.mem .absx) 0xFFFE { indexed with pc := 0xFFFD } = .ok (.address 0xFFFF) ∧
    hasSuccessor (instrLength (.cmpAbsx 0xFFFE)) indexed ∧
    ¬ hasSuccessor (instrLength (.cmpAbsx 0xFFFE)) { indexed with pc := 0xFFFD } := by
  unfold hasSuccessor; decide

theorem witness_LoadsTakeTheOperandValue :
    ((Instr.ldyAbsx 0xFFFE).mnemonic, Reg.y) ∈ [(Mnemonic.lda, Reg.a), (.ldx, .x), (.ldy, .y)] ∧
    (Instr.ldyAbsx 0xFFFE).mode = some (.mem .absx) ∧
    resolve (.mem .absx) 0xFFFE indexed = .ok (.address 0xFFFF) ∧
    resolve (.mem .absx) 0xFFFF indexed = .error .addressOutOfRange ∧
    resolve (.mem .absx) 0xFFFE { indexed with pc := 0xFFFD } = .ok (.address 0xFFFF) ∧
    hasSuccessor (instrLength (.ldyAbsx 0xFFFE)) indexed ∧
    ¬ hasSuccessor (instrLength (.ldyAbsx 0xFFFE)) { indexed with pc := 0xFFFD } := by
  unfold hasSuccessor; decide

theorem witness_StoresWriteTheRegister :
    ((Instr.staAbsy 0xFFFE).mnemonic, Reg.a) ∈ [(Mnemonic.sta, Reg.a), (.stx, .x), (.sty, .y)] ∧
    (Instr.staAbsy 0xFFFE).mode = some (.mem .absy) ∧
    effectiveAddress .absy 0xFFFE indexed = .ok 0xFFFF ∧
    effectiveAddress .absy 0xFFFF indexed = .error .addressOutOfRange ∧
    effectiveAddress .absy 0xFFFE { indexed with pc := 0xFFFD } = .ok 0xFFFF ∧
    hasSuccessor (instrLength (.staAbsy 0xFFFE)) indexed ∧
    ¬ hasSuccessor (instrLength (.staAbsy 0xFFFE)) { indexed with pc := 0xFFFD } := by
  unfold hasSuccessor; decide

theorem witness_LoadUsesOldIndex :
    Mnemonic.ldx ∈ [Mnemonic.lda, .ldx, .ldy] ∧
    resolve (.mem .absx) 0xFFFE indexed = .ok (.address 0xFFFF) ∧
    hasSuccessor (modeLength (some (.mem .absx))) indexed ∧ hasSuccessor 3 indexed ∧
    (0xFFFE : Word).toNat + indexed.x.toNat ≤ 0xFFFF ∧
    (0xFFFE : Word).toNat + indexed.y.toNat ≤ 0xFFFF := by
  unfold hasSuccessor; decide

/-- Two states that differ outside page 0 alone. -/
theorem witness_PointersComeFromPageZeroOnly :
    MemMode.indx ≠ .ind ∧ start.x = (startWith [(0x0100, 0xEE)]).x ∧
    start.y = (startWith [(0x0100, 0xEE)]).y ∧ start ≠ startWith [(0x0100, 0xEE)] ∧
    ∀ a : Word, a.toNat < 0x0100 → start.readByte a = (startWith [(0x0100, 0xEE)]).readByte a := by
  refine ⟨by decide, by decide, by decide, by decide, fun a h => ?_⟩
  have hne : ¬ (0x0100 = a.toNat) := by omega
  show readCells a.toNat [] = readCells a.toNat [(0x0100, 0xEE)]
  simp [readCells, hne]

/-- An instruction that is no CMP, a CMP that raises and one that completes. -/
theorem witness_FlagsAreWrittenByCmpAndReadByNone :
    ((Instr.ldaImm 0x80).mnemonic ≠ .cmp ∧ ∃ t, exec (.ldaImm 0x80) start = .next t) ∧
    (raiseCondition (.cmpAbsx 0xFFFF) indexed ∧ ∃ t, exec (.cmpAbsx 0xFFFF) indexed = .next t) ∧
    ((Instr.cmpAbsx 0xFFFE).mnemonic = .cmp ∧ ¬ raiseCondition (.cmpAbsx 0xFFFE) indexed ∧
      ∃ t, exec (.cmpAbsx 0xFFFE) indexed = .next t) := by
  refine ⟨⟨by decide, _, rfl⟩, ⟨?_, _, rfl⟩, by decide, ?_, _, rfl⟩ <;>
    simp only [raiseCondition, addressOverflow, hasSuccessor, Instr.mode] <;> decide

/-- An instruction outside all four lists. -/
theorem witness_RegistersChangeOnlyByTheirWriters :
    (Instr.nop).mnemonic ∉ [Mnemonic.lda, .pla, .txa, .tya] ∧
    (Instr.nop).mnemonic ∉ [Mnemonic.ldx, .tax, .inx, .dex] ∧
    (Instr.nop).mnemonic ∉ [Mnemonic.ldy, .tay, .iny, .dey] ∧
    (Instr.nop).mnemonic ∉ [Mnemonic.pha, .pla, .jsr, .rts] ∧ ∃ t, exec .nop start = .next t :=
  ⟨by decide, by decide, by decide, by decide, ⟨_, rfl⟩⟩

theorem witness_OtherInstructionsLeaveMemory :
    (Instr.pla).mnemonic ∉ [Mnemonic.sta, .stx, .sty, .pha, .jsr] ∧ ∃ t, exec .pla start = .next t :=
  ⟨by decide, ⟨_, rfl⟩⟩

theorem witness_StoreChangesOneByte :
    ((Instr.staAbsx 0xFFFE).mnemonic, Reg.a) ∈ [(Mnemonic.sta, Reg.a), (.stx, .x), (.sty, .y)] ∧
    (Instr.staAbsx 0xFFFE).mode = some (.mem .absx) ∧
    effectiveAddress .absx (Instr.staAbsx 0xFFFE).operand indexed = .ok 0xFFFF ∧ indexed.st = .running ∧
    (∃ t, exec (.staAbsx 0xFFFE) indexed = .next t ∧ t.st = .running) ∧ (0x0000 : Word) ≠ 0xFFFF :=
  ⟨by decide, rfl, by decide, rfl, ⟨_, rfl, rfl⟩, by decide⟩

/-- The stack pointer at the bottom of its page, where JSR's second push is at the top. -/
theorem witness_PushesChangeOnlyStackBytes :
    let s := { start with sp := 0x00 }
    s.st = .running ∧ (∃ t, exec .pha s = .next t ∧ t.st = .running) ∧
    (∃ t, exec (.jsrAbs 0x1234) s = .next t ∧ t.st = .running) ∧
    (0x00FF : Word) ≠ stackAddr s.sp ∧ (0x00FF : Word) ≠ stackAddr (s.sp - 1) :=
  ⟨rfl, ⟨_, rfl, rfl⟩, ⟨_, rfl, rfl⟩, by decide, by decide⟩

theorem witness_StackPointerIsInvisible :
    (Instr.staIndy 0x10).mnemonic ∉ [Mnemonic.pha, .pla, .jsr, .rts] ∧
    ∃ t, exec (.staIndy 0x10) start = .next t := ⟨by decide, ⟨_, rfl⟩⟩

theorem witness_PcAdvancesByTheLength :
    (lastPc 3).st = .running ∧
    ((Instr.ldaAbs 0).mnemonic ∉ [Mnemonic.jmp, .jsr, .rts] ∧
      ∃ t, exec (.ldaAbs 0) (lastPc 3) = .next t ∧ t.st = .running) ∧
    ((Instr.jsrAbs 0).mode = some (.mem .abs) ∧ (Instr.jsrAbs 0).mnemonic ∈ [Mnemonic.jmp, .jsr] ∧
      ∃ t, exec (.jsrAbs 0) (lastPc 3) = .next t ∧ t.st = .running) :=
  ⟨rfl, ⟨by decide, ⟨_, rfl, rfl⟩⟩, rfl, by decide, ⟨_, rfl, rfl⟩⟩

theorem witness_ExceptionHaltsTheEngine :
    { start with st := .halted .invalidOpcode }.st = .halted .invalidOpcode ∧
    { start with st := .halted .addressOutOfRange }.st = .halted .addressOutOfRange := by decide

/-- Undefined and defined bytes next to each other (R55). -/
theorem witness_UndefinedOpcodeHalts :
    (startWith [(0x0400, 0x1F)]).st = .running ∧
    undefinedOpcode ((startWith [(0x0400, 0x1F)]).readByte 0x0400) = true ∧
    undefinedOpcode ((startWith [(0x0400, 0x20)]).readByte 0x0400) = false ∧
    undefinedOpcode ((startWith [(0x0400, 0x21)]).readByte 0x0400) = true := by decide

theorem witness_InstructionsCompleteUnlessTheyMustRaise :
    raiseCondition (.ldaAbsx 0xFFFF) indexed ∧ ¬ raiseCondition (.ldaAbsx 0xFFFE) indexed ∧
    raiseCondition (.jsrAbs 0) (pastLastPc 3) ∧ ¬ raiseCondition (.jmpAbs 0) (pastLastPc 3) := by
  simp only [raiseCondition, addressOverflow, hasSuccessor, Instr.mode]; decide

/-- Every case of the six: an undefined opcode; operand bytes above the top; a decoded instruction that
raises; one that does not. -/
theorem witness_StepRaisesExactlyTheSixConditions :
    (start.st = .running ∧ rowOf optable (start.readByte start.pc) = none) ∧
    (let s := State.put (pastLastPc 1) [0xA9]
     s.st = .running ∧ rowOf optable (s.readByte s.pc) = some ⟨0xA9, .lda, some .imm, 2⟩ ∧
      0xFFFF < s.pc.toNat + 2 - 1) ∧
    (let s := State.put (pastLastPc 2) [0xA9, 0x07]
     s.st = .running ∧ rowOf optable (s.readByte s.pc) = some ⟨0xA9, .lda, some .imm, 2⟩ ∧
      s.pc.toNat + 2 - 1 ≤ 0xFFFF ∧ fetchDecode s = .ok (.ldaImm 0x07)) ∧
    raiseCondition (.ldaImm 0x07) (State.put (pastLastPc 2) [0xA9, 0x07]) ∧
    ¬ raiseCondition (.ldaImm 0x07) (State.put (lastPc 2) [0xA9, 0x07]) := by
  simp only [raiseCondition, addressOverflow, hasSuccessor, Instr.mode]; decide

theorem witness_OnlyHaltedStatesStop :
    start.st = .running ∧ { start with st := .halted .invalidOpcode }.st = .halted .invalidOpcode := by
  decide

theorem witness_StepRunsTheDecodedInstruction :
    start.st = .running ∧
    decode (fetchBytes (State.put (pastLastPc 3) [0x4C, 0x34, 0x12])) = .ok (.jmpAbs 0x1234, []) ∧
    (pastLastPc 3).pc.toNat + 2 ≤ 0xFFFF := by decide

/-- An instruction whose last byte is at 0xFFFF. -/
theorem witness_StepRunsTheEncodedInstruction :
    let s := State.put (pastLastPc 3) [0x4C, 0x34, 0x12]
    s.st = .running ∧ encode (.jmpAbs 0x1234) = some [0x4C, 0x34, 0x12] ∧
    s.pc.toNat + [(0x4C : Byte), 0x34, 0x12].length ≤ 0x10000 ∧
    ∀ k b, [(0x4C : Byte), 0x34, 0x12][k]? = some b → s.mem.read (s.pc.toNat + k) = b := by
  refine ⟨by decide, by decide, by decide, fun k b h => ?_⟩
  match k, h with
  | 0, h => cases h; decide
  | 1, h => cases h; decide
  | 2, h => cases h; decide

theorem witness_StoredOpcodeRunsNext :
    let s := State.put { start with a := 0xEA } [0x8D, 0x03, 0x04]
    s.st = .running ∧ hasSuccessor 3 s ∧ fetchDecode s = .ok (.staAbs (s.pc + 3)) ∧
    encode .nop = some [s.a] := by
  unfold hasSuccessor; decide

/-- J2. -/
theorem witness_ParkedStateIsFixed : Parked (State.put start [0x4C, 0x00, 0x04]) := by
  unfold Parked; decide

/-- Two images written in different orders. -/
theorem witness_CanonicalMemoriesReadingAlikeAreEqual :
    (memOf [(1, 2), (0xFFFF, 4), (1, 0), (3, 5)]).wf = true ∧ (memOf [(3, 5), (0xFFFF, 4)]).wf = true ∧
    ∀ a : Word, (memOf [(1, 2), (0xFFFF, 4), (1, 0), (3, 5)]).read a.toNat =
      (memOf [(3, 5), (0xFFFF, 4)]).read a.toNat := by
  refine ⟨by decide, by decide, fun a => ?_⟩
  rw [show memOf [(1, 2), (0xFFFF, 4), (1, 0), (3, 5)] = memOf [(3, 5), (0xFFFF, 4)] by decide]

theorem witness_TransactionsAccountForMemory :
    ∃ t, step (State.put start [0x20, 0x34, 0x12]) = .next t := ⟨_, rfl⟩

theorem witness_TransactionOrder :
    start.st = .running ∧
    (let s := State.put (lastPc 3) [0x20, 0x34, 0x12]
     fetchDecode s = .ok (.jsrAbs 0x1234) ∧ hasSuccessor 3 s) ∧
    fetchDecode (State.put (pastLastPc 1) [0x60]) = .ok .rts ∧
    (let s := State.put (lastPc 2) [0xA1, 0xFF]
     fetchDecode s = .ok (.ldaIndx 0xFF) ∧ hasSuccessor 2 s) ∧
    (let s := State.put (lastPc 2) [0x91, 0xFF]
     fetchDecode s = .ok (.staIndy 0xFF) ∧ effectiveAddress .indy (zext 0xFF) s = .ok 0x0000 ∧
      hasSuccessor 2 s) := by
  unfold hasSuccessor; decide

theorem witness_ResetEstablishesInvariant :
    (memOf [(0xFFFC, 0x34), (0xFFFD, 0x12)]).wf = true ∧
    (startWith [(0xFFFC, 0x34), (0xFFFD, 0x12)]).mem.wf = true := by decide

theorem witness_StepKeepsInvariant :
    EngineInv (State.put start [0x48]) ∧ ∃ t, step (State.put start [0x48]) = .next t :=
  ⟨by unfold EngineInv; decide, _, rfl⟩

/-- A run launched on an image, stepped and reset again. -/
theorem witness_EveryReachableStateKeepsInvariant :
    ∃ t, step (launch 1 2 3 (memOf [(0x0000, 0xEA)])) = .next t ∧ Reachable (applyReset 4 5 6 t) :=
  ⟨_, rfl, .resetAgain _ _ _ _ (.stepped _ _ (.launched 1 2 3 (memOf [(0x0000, 0xEA)]) rfl) rfl)⟩

/-- Two states that agree on the vector alone. -/
theorem witness_ResetReadsItsVector :
    startWith [(0xFFFC, 0x34)] ≠ startWith [(0xFFFC, 0x34), (0x0000, 0xEE)] ∧
    ∀ addr : Word, Transaction.read addr ∈ resetTransactions →
      (startWith [(0xFFFC, 0x34)]).readByte addr =
        (startWith [(0xFFFC, 0x34), (0x0000, 0xEE)]).readByte addr := by
  refine ⟨by decide, fun addr h => ?_⟩
  have : addr = 0xFFFC ∨ addr = 0xFFFD := by simpa [resetTransactions, resetVector] using h
  rcases this with rfl | rfl <;> decide

/-- Each refusal, at construction. -/
theorem witness_TablesAreRefusedAtConstruction :
    buildEngine [⟨0xEA, .nop, none, 1⟩, ⟨0xEA, .tax, none, 1⟩] = .error .duplicateOpcode ∧
    buildEngine [⟨0xA9, .lda, some .imm, 3⟩] = .error .wrongLength ∧
    buildEngine [⟨0x89, .sta, some .imm, 2⟩] = .error .inadmissiblePair := ⟨rfl, rfl, rfl⟩

theorem witness_BuiltEnginesRunEveryRow :
    let s := State.put (lastPc 3) [0x02, 0xFE, 0xFF]
    buildEngine ldxTable = .ok (stepWith ldxTable) ∧ s.st = .running ∧
    ⟨0x02, .ldx, some (.mem .absx), 3⟩ ∈ ldxTable ∧ s.readByte s.pc = 0x02 ∧
    s.pc.toNat + 3 - 1 ≤ 0xFFFF := ⟨rfl, by decide, by decide, by decide, by decide⟩

/-- Pairs that R54 gives no opcode: LDX absx, STX absx and CMP zpgy. -/
theorem witness_EveryAdmissiblePairHasItsMeaning :
    ((Mnemonic.ldx, Reg.x) ∈ [(Mnemonic.lda, Reg.a), (.ldx, .x), (.ldy, .y)] ∧
      some (.mem .absx) ∈ admissibleModes .ldx ∧
      resolve (.mem .absx) 0xFFFE indexed = .ok (.address 0xFFFF) ∧
      resolve (.mem .absx) 0xFFFF indexed = .error .addressOutOfRange) ∧
    ((Mnemonic.stx, Reg.x) ∈ [(Mnemonic.sta, Reg.a), (.stx, .x), (.sty, .y)] ∧
      some (.mem .absx) ∈ admissibleModes .stx ∧ effectiveAddress .absx 0xFFFE indexed = .ok 0xFFFF ∧
      effectiveAddress .absx 0xFFFF indexed = .error .addressOutOfRange) ∧
    (some (.mem .zpgy) ∈ admissibleModes .cmp ∧
      resolve (.mem .zpgy) 0x00FF indexed = .ok (.address 0x0000)) ∧
    hasSuccessor (modeLength (some (.mem .absx))) indexed ∧
    ¬ hasSuccessor (modeLength (some (.mem .absx))) { indexed with pc := 0xFFFD } := by
  unfold hasSuccessor; decide

/-- The three pointer modes, the two ends of the stack, and an instruction that raises. -/
theorem witness_TransactionsOfEveryInstruction :
    start.st = .running ∧
    (let s := State.put start [0xC1, 0xFF]
     fetchDecode s = .ok (.cmpIndx 0xFF) ∧ effectiveAddress .indx 0xFF s = .ok 0x0000) ∧
    fetchDecode (State.put start [0xB1, 0xFF]) = .ok (.ldaIndy 0xFF) ∧
    fetchDecode (State.put start [0x6C, 0xFE, 0xFF]) = .ok (.jmpInd 0xFFFE) ∧
    fetchDecode (State.put start [0x6C, 0xFF, 0xFF]) = .ok (.jmpInd 0xFFFF) ∧
    fetchDecode (State.put start [0x60]) = .ok .rts ∧ fetchDecode (State.put start [0x48]) = .ok .pha ∧
    (let s := State.put { start with x := 0x01 } [0x9D, 0xFE, 0xFF]
     fetchDecode s = .ok (.staAbsx 0xFFFE) ∧ effectiveAddress .absx 0xFFFE s = .ok 0xFFFF) ∧
    fetchDecode (State.put { start with x := 0x01 } [0x9D, 0xFF, 0xFF]) = .ok (.staAbsx 0xFFFF) ∧
    raiseCondition (.staAbsx 0xFFFF) (State.put { start with x := 0x01 } [0x9D, 0xFF, 0xFF]) ∧
    ¬ raiseCondition (.staAbsx 0xFFFE) (State.put { start with x := 0x01 } [0x9D, 0xFE, 0xFF]) := by
  simp only [raiseCondition, addressOverflow, hasSuccessor, Instr.mode]; decide

/-- LDA absolute over two memories that differ outside the bytes it reads. -/
theorem witness_EngineSeesMemoryThroughReplies :
    let s := State.put (startWith [(0x1234, 0x56)]) [0xAD, 0x34, 0x12]
    let m := s.mem.write 0x1235 0x99
    m ≠ s.mem ∧ replies m (transactions s) = replies s.mem (transactions s) ∧
    replies s.mem (transactions s) = [some 0xAD, some 0x34, some 0x12, some 0x56] ∧
    ∃ t, step s = .next t := ⟨by decide, by decide, by decide, _, rfl⟩

end Sys2Proof.Tests
end

section
/-! Proofs about the state (10_state.md): the effect of an instruction, said once, then the invariant, the
frames of the registers and SP, PC, and the canonical form of memory. -/

namespace Sys2Proof.Machine

/-! #### The effect of an instruction, with a name for each case -/

/-- The states instruction `i` can answer in state `s`: `exec_cases` with a name for each case. In the
first it took AddressOutOfRange, in the others it completed. -/
inductive Effect (i : Instr) (s : State) : State → Prop where
  | raised : Effect i s { s with st := .halted .addressOutOfRange }
  | loaded {r : Reg} {m : Mode} {o : Resolved} (hr : loadedReg i.mnemonic = some r)
      (hm : i.mode = some m) (ho : resolve m i.operand s = .ok o) :
      Effect i s { s.setReg r (operandValue o s) with pc := s.pc + BitVec.ofNat 16 (instrLength i) }
  | stored {r : Reg} {m : MemMode} {ea : Word} (hr : storedReg i.mnemonic = some r)
      (hm : i.mode = some (.mem m)) (hea : effectiveAddress m i.operand s = .ok ea) :
      Effect i s { s.writeByte ea (s.getReg r) with pc := s.pc + BitVec.ofNat 16 (instrLength i) }
  | compared {m : Mode} {o : Resolved} (hc : i.mnemonic = .cmp) (hm : i.mode = some m)
      (ho : resolve m i.operand s = .ok o) :
      Effect i s { s with
        flags := compareFlags s.a (operandValue o s) s.flags
        pc := s.pc + BitVec.ofNat 16 (instrLength i) }
  | implied {f : State → Handled} (hf : impliedHandler i.mnemonic = some f) (hm : i.mode = none) :
      Effect i s (settlePc 1 (f s))
  | jumped {m : MemMode} {target : Word} (hj : i.mnemonic = .jmp) (hm : i.mode = some (.mem m))
      (ht : effectiveAddress m i.operand s = .ok target) : Effect i s { s with pc := target }
  | called (hj : i.mnemonic = .jsr) (hm : i.mode = some (.mem .abs)) :
      Effect i s { push (lowByte (s.pc + 3)) (push (highByte (s.pc + 3)) s) with pc := i.operand }

theorem exec_effect {i : Instr} {s t : State} (h : exec i s = .next t) : Effect i s t := by
  rcases exec_cases i s with hx | ⟨r, m, o, hr, hm, ho, hx⟩ | ⟨r, m, ea, hr, hm, hea, hx⟩ |
    ⟨m, o, hc, hm, ho, hx⟩ | ⟨f, hf, hm, hx⟩ | ⟨m, target, hj, hm, ht, hx⟩ | ⟨hj, hm, hx⟩ <;>
    cases hx.symm.trans h
  · exact .raised
  · exact .loaded hr hm ho
  · exact .stored hr hm hea
  · exact .compared hc hm ho
  · exact .implied hf hm
  · exact .jumped hj hm ht
  · exact .called hj hm

/-- An instruction run through the skeleton that leaves the engine running passed its successor check. -/
theorem perform_successorOk {α : Type} {mn : Mnemonic} {len : Nat} {r : Except Exc α}
    {f : α → State → Handled} {s t : State} (h : perform mn len r f s = .next t)
    (ht : t.st = .running) : successorOk mn len s = true := by
  rcases perform_cases h with ⟨k, -, hk⟩ | ⟨x, -, hs, -⟩ | ⟨x, -, -, hk⟩
  · cases hk
    cases ht
  · exact hs
  · cases hk
    cases ht

theorem exec_successorOk {i : Instr} {s t : State} (h : exec i s = .next t) (ht : t.st = .running) :
    successorOk i.mnemonic (instrLength i) s = true := by
  rcases instr_family i with ⟨r, m, hr, hm⟩ | ⟨r, m, hr, hm⟩ | ⟨m, hc, hm⟩ | ⟨f, hf, hm⟩ |
    ⟨v, rfl⟩ | ⟨v, rfl⟩ | ⟨v, rfl⟩
  · rw [instrLength, hm]
    exact perform_successorOk ((exec_load hr hm s).symm.trans h) ht
  · rw [instrLength, hm]
    exact perform_successorOk ((exec_store hr hm s).symm.trans h) ht
  · rw [instrLength, hm, hc]
    exact perform_successorOk ((exec_compare hc hm s).symm.trans h) ht
  · rw [instrLength, hm]
    exact perform_successorOk ((exec_implied hf s).symm.trans h) ht
  · exact (successorOk_iff ..).mpr (.inl rfl)
  · exact (successorOk_iff ..).mpr (.inl rfl)
  · exact perform_successorOk ((exec_jsrAbs v s).symm.trans h) ht

/-- A step that answers a next state takes an exception or runs the instruction at PC. -/
theorem step_cases {s t : State} (h : step s = .next t) :
    (∃ k, t = { s with st := .halted k }) ∨ ∃ i, fetchDecode s = .ok i ∧ exec i s = .next t := by
  cases hst : s.st with
  | halted k =>
    rw [step_halted hst] at h
    cases h
  | running =>
    rw [step_running hst] at h
    cases hf : fetchDecode s with
    | ok i => exact .inr ⟨i, rfl, by simpa only [hf] using h⟩
    | error e =>
      simp only [hf] at h
      cases e with
      | invalidOpcode op => cases h; exact .inl ⟨_, rfl⟩
      | truncated => cases h; exact .inl ⟨_, rfl⟩
      | malformedTable => cases h

/-! #### What the instructions without a mode change -/

section Implied

variable {mn : Mnemonic} {f : State → Handled} (hf : impliedHandler mn = some f) (s : State)
include hf

theorem impliedHandler_flags : (settlePc 1 (f s)).flags = s.flags := by
  cases mn <;> cases hf <;> rfl

theorem impliedHandler_mem_wf (hs : s.mem.wf = true) : (settlePc 1 (f s)).mem.wf = true := by
  cases mn with
  | pha => cases hf; exact Memory.write_word_wf hs _ _
  | _ => cases hf <;> exact hs

theorem impliedHandler_sp (hmn : mn ∉ [Mnemonic.pha, .pla, .jsr, .rts]) :
    (settlePc 1 (f s)).sp = s.sp := by
  cases mn with
  | pha | pla | rts => exact absurd (by decide) hmn
  | _ => cases hf <;> rfl

theorem impliedHandler_pc (hmn : mn ≠ .rts) : (settlePc 1 (f s)).pc = s.pc + BitVec.ofNat 16 1 := by
  cases mn with
  | rts => exact absurd rfl hmn
  | _ => cases hf <;> rfl

theorem impliedHandler_with_sp (hmn : mn ∉ [Mnemonic.pha, .pla, .jsr, .rts]) (p : Byte) :
    settlePc 1 (f { s with sp := p }) = { settlePc 1 (f s) with sp := p } := by
  cases mn with
  | pha | pla | rts => exact absurd (by decide) hmn
  | _ => cases hf <;> rfl

end Implied

/-! #### The invariant (R16) -/

/-- An instruction leaves the flags as they were or writes those of a comparison. -/
theorem exec_flags {i : Instr} {s t : State} (h : exec i s = .next t) :
    t.flags = s.flags ∨ ∃ value, t.flags = compareFlags s.a value s.flags := by
  cases exec_effect h with
  | loaded hr => exact .inl (State.setReg_flags ..)
  | compared hc => exact .inr ⟨_, rfl⟩
  | implied hf hm => exact .inl (impliedHandler_flags hf s)
  | _ => exact .inl rfl

/-- An instruction keeps the canonical form of memory. -/
theorem exec_mem_wf {i : Instr} {s t : State} (h : exec i s = .next t) (hs : s.mem.wf = true) :
    t.mem.wf = true := by
  cases exec_effect h with
  | raised | compared hc | jumped hj hm ht => exact hs
  | loaded hr => simpa using hs
  | stored hr => exact Memory.write_word_wf hs _ _
  | implied hf hm => exact impliedHandler_mem_wf hf s hs
  | called hj => exact Memory.write_word_wf (Memory.write_word_wf hs _ _) _ _

theorem exec_engineInv {i : Instr} {s t : State} (hs : EngineInv s) (h : exec i s = .next t) :
    EngineInv t := by
  obtain ⟨hmem, hflags⟩ := hs
  refine ⟨exec_mem_wf h hmem, ?_⟩
  rcases exec_flags h with hf | ⟨value, hf⟩ <;> rw [hf] <;> exact hflags

theorem step_engineInv {s t : State} (hs : EngineInv s) (h : step s = .next t) : EngineInv t := by
  rcases step_cases h with ⟨k, rfl⟩ | ⟨i, -, hi⟩
  · exact hs
  · exact exec_engineInv hs hi

theorem applyReset_engineInv (a x y : Byte) (s : State) (hs : s.mem.wf = true) :
    EngineInv (applyReset a x y s) := ⟨hs, rfl, rfl, rfl, rfl⟩

theorem launch_engineInv (a x y : Byte) (image : Memory) (h : image.wf = true) :
    EngineInv (launch a x y image) := applyReset_engineInv a x y _ h

/-- Settles O51: a raise writes ST alone, a store or push keeps the canonical form, and CMP writes
none of V, B, D and I. -/
theorem stepKeepsInvariant : Obligations.StepKeepsInvariant := fun _ _ hs h => step_engineInv hs h

/-- Settles O50: reset clears the flags and leaves memory as it was. -/
theorem resetEstablishesInvariant : Obligations.ResetEstablishesInvariant :=
  ⟨⟨Memory.empty_wf, rfl, rfl, rfl, rfl⟩, launch_engineInv, applyReset_engineInv⟩

/-- Settles O52, by induction on how the state is reached. -/
theorem everyReachableStateKeepsInvariant : Obligations.EveryReachableStateKeepsInvariant := by
  intro s hs
  induction hs with
  | launched a x y image h => exact launch_engineInv a x y image h
  | stepped s t _ h ih => exact step_engineInv ih h
  | resetAgain a x y s _ ih => exact applyReset_engineInv a x y s ih.1

/-- Settles O49: both sides are the same fixed state. -/
theorem stateResetIsResetOfEmptyMemory : Obligations.StateResetIsResetOfEmptyMemory :=
  ⟨rfl, rfl, rfl, rfl, rfl, fun a => Memory.read_empty a.toNat⟩

/-! #### Registers and their writers (R12, R13) -/

/-- The mnemonics the spec lists as the writers of a register (R12). -/
def Reg.writers : Reg → List Mnemonic
  | .a => [.lda, .pla, .txa, .tya]
  | .x => [.ldx, .tax, .inx, .dex]
  | .y => [.ldy, .tay, .iny, .dey]

theorem mem_writers_of_loadedReg {mn : Mnemonic} {r : Reg} (h : loadedReg mn = some r) :
    mn ∈ r.writers := by
  cases mn <;> cases h <;> decide

@[simp] theorem State.getReg_with_pc (s : State) (w : Word) (r : Reg) :
    ({ s with pc := w } : State).getReg r = s.getReg r := by
  cases r <;> rfl

theorem impliedHandler_getReg {mn : Mnemonic} {f : State → Handled} {r : Reg}
    (hf : impliedHandler mn = some f) (s : State) (hmn : mn ∉ r.writers) :
    (settlePc 1 (f s)).getReg r = s.getReg r := by
  cases r with
  | a =>
    cases mn with
    | pla | txa | tya => exact absurd (by decide) hmn
    | _ => cases hf <;> rfl
  | x =>
    cases mn with
    | tax | inx | dex => exact absurd (by decide) hmn
    | _ => cases hf <;> rfl
  | y =>
    cases mn with
    | tay | iny | dey => exact absurd (by decide) hmn
    | _ => cases hf <;> rfl

/-- The frame of the registers: an instruction that is none of a register's writers leaves it. -/
theorem exec_getReg {i : Instr} {s t : State} {q : Reg} (h : exec i s = .next t)
    (hi : i.mnemonic ∉ q.writers) : t.getReg q = s.getReg q := by
  cases exec_effect h with
  | loaded hr =>
    rw [State.getReg_with_pc, State.getReg_setReg_other]
    rintro rfl
    exact hi (mem_writers_of_loadedReg hr)
  | implied hf hm => exact impliedHandler_getReg hf s hi
  | _ => cases q <;> rfl

/-- The frame of SP: only the stack instructions change it. -/
theorem exec_sp {i : Instr} {s t : State} (h : exec i s = .next t)
    (hi : i.mnemonic ∉ [Mnemonic.pha, .pla, .jsr, .rts]) : t.sp = s.sp := by
  cases exec_effect h with
  | loaded hr => exact State.setReg_sp ..
  | implied hf hm => exact impliedHandler_sp hf s hi
  | called hj => simp [hj] at hi
  | _ => rfl

/-- Settles O28, by the frame of each register. -/
theorem registersChangeOnlyByTheirWriters : Obligations.RegistersChangeOnlyByTheirWriters :=
  fun _ _ _ h => ⟨exec_getReg (q := .a) h, exec_getReg (q := .x) h, exec_getReg (q := .y) h, exec_sp h⟩

/-! #### SP is not read (R13) -/

theorem effectiveAddress_with_sp (m : MemMode) (v : Word) (s : State) (p : Byte) :
    effectiveAddress m v { s with sp := p } = effectiveAddress m v s := by
  cases m <;> rfl

theorem resolve_with_sp (m : Mode) (v : Word) (s : State) (p : Byte) :
    resolve m v { s with sp := p } = resolve m v s := by
  cases m with
  | imm => rfl
  | mem m => simp only [resolve, effectiveAddress_with_sp]

@[simp] theorem operandValue_with_sp (o : Resolved) (s : State) (p : Byte) :
    operandValue o { s with sp := p } = operandValue o s := by
  cases o <;> rfl

@[simp] theorem State.setReg_with_sp (s : State) (r : Reg) (v p : Byte) :
    ({ s with sp := p } : State).setReg r v = { s.setReg r v with sp := p } := by
  cases r <;> rfl

@[simp] theorem State.getReg_with_sp (s : State) (r : Reg) (p : Byte) :
    ({ s with sp := p } : State).getReg r = s.getReg r := by
  cases r <;> rfl

/-- The skeleton with another SP: when neither resolving nor the handler looks at SP, the answer is the
same with that SP. -/
theorem perform_with_sp {α : Type} {mn : Mnemonic} {len : Nat} {r r' : Except Exc α}
    {f : α → State → Handled} {s t : State} {p : Byte} (hr : r' = r)
    (hf : ∀ x, settlePc len (f x { s with sp := p }) = { settlePc len (f x s) with sp := p })
    (h : perform mn len r f s = .next t) :
    perform mn len r' f { s with sp := p } = .next { t with sp := p } := by
  subst hr
  rcases perform_cases h with ⟨k, hk, ht⟩ | ⟨x, hx, hs, ht⟩ | ⟨x, hx, hs, ht⟩ <;> cases ht
  · exact perform_resolve_raises hk
  · exact (perform_completes (s := { s with sp := p }) hx hs).trans (congrArg _ (hf x))
  · exact perform_successor_raises hx hs

/-- Settles O32: no mode reads SP, and no handler but those of the stack instructions does. -/
theorem stackPointerIsInvisible : Obligations.StackPointerIsInvisible := by
  intro i s t p hi h
  rcases instr_family i with ⟨r, m, hr, hm⟩ | ⟨r, m, hr, hm⟩ | ⟨m, hc, hm⟩ | ⟨f, hf, hm⟩ |
    ⟨v, rfl⟩ | ⟨v, rfl⟩ | ⟨v, rfl⟩
  · rw [exec_load hr hm] at h ⊢
    exact perform_with_sp (resolve_with_sp ..) (fun o => by simp) h
  · rw [exec_store hr hm] at h ⊢
    exact perform_with_sp (effectiveAddress_with_sp ..) (fun ea => by simp [State.writeByte]) h
  · rw [exec_compare hc hm] at h ⊢
    exact perform_with_sp (resolve_with_sp ..) (fun o => by simp) h
  · rw [exec_implied hf] at h ⊢
    exact perform_with_sp rfl (fun _ => impliedHandler_with_sp hf s hi p) h
  · rw [exec_jmpAbs] at h ⊢
    exact perform_with_sp (effectiveAddress_with_sp ..) (fun _ => rfl) h
  · rw [exec_jmpInd] at h ⊢
    exact perform_with_sp (effectiveAddress_with_sp ..) (fun _ => rfl) h
  · simp [Instr.mnemonic] at hi

/-! #### PC after an instruction (R74, R75) -/

/-- An instruction that completes and does not set PC itself leaves it after its own bytes. -/
theorem exec_pc_advances {i : Instr} {s t : State} (h : exec i s = .next t) (ht : t.st = .running)
    (hi : i.mnemonic ∉ [Mnemonic.jmp, .jsr, .rts]) :
    t.pc = s.pc + BitVec.ofNat 16 (instrLength i) := by
  cases exec_effect h with
  | raised => cases ht
  | loaded hr | stored hr | compared hc => rfl
  | implied hf hm =>
    rw [impliedHandler_pc hf s fun e => hi (by simp [e]), instrLength, hm, modeLength]
  | jumped hj hm ht' => simp [hj] at hi
  | called hj => simp [hj] at hi

/-- JMP and JSR belong to none of the families whose instructions leave PC to the step. -/
theorem not_family_of_jump {mn : Mnemonic} (h : mn ∈ [Mnemonic.jmp, .jsr]) :
    loadedReg mn = none ∧ storedReg mn = none ∧ mn ≠ .cmp ∧ impliedHandler mn = none := by
  rcases List.mem_pair.mp h with rfl | rfl <;> simp [loadedReg, storedReg, impliedHandler]

/-- A jump or call with mode abs that completes leaves PC at its operand. -/
theorem exec_pc_of_abs_jump {i : Instr} {s t : State} (h : exec i s = .next t) (ht : t.st = .running)
    (hm : i.mode = some (.mem .abs)) (hi : i.mnemonic ∈ [Mnemonic.jmp, .jsr]) : t.pc = i.operand := by
  obtain ⟨hl, hs, hc', hn⟩ := not_family_of_jump hi
  cases exec_effect h with
  | raised => cases ht
  | loaded hr => cases hl.symm.trans hr
  | stored hr => cases hs.symm.trans hr
  | compared hc => exact absurd hc hc'
  | implied hf => cases hn.symm.trans hf
  | jumped _ hm' htarget =>
    cases hm.symm.trans hm'
    cases htarget
    rfl
  | called => rfl

/-- A sum that stays in the address space does not wrap. -/
theorem pc_add_toNat {pc : Word} {len : Nat} (h : pc.toNat + len ≤ 0xFFFF) :
    (pc + BitVec.ofNat 16 len).toNat = pc.toNat + len := by
  simp only [BitVec.toNat_add, BitVec.toNat_ofNat]
  omega

/-- Settles O33: the successor check rules out a wrap. -/
theorem pcAdvancesByTheLength : Obligations.PcAdvancesByTheLength := by
  refine fun i s t _ h ht => ⟨fun hi => ?_, exec_pc_of_abs_jump h ht⟩
  have hfit : s.pc.toNat + instrLength i ≤ 0xFFFF := by
    rcases (successorOk_iff ..).mp (exec_successorOk h ht) with hj | hr | hfit
    · simp [hj] at hi
    · simp [hr] at hi
    · exact hfit
  rw [exec_pc_advances h ht hi, pc_add_toNat hfit]

/-! #### Canonical memories (R23) -/

theorem cellsFrom_cons {lo k : Nat} {b : Byte} {l : List Host.Cell} :
    cellsFrom lo ((k, b) :: l) = true ↔
      lo ≤ k ∧ k < addressCount ∧ b ≠ unlistedByte ∧ cellsFrom (k + 1) l = true := by
  simp [cellsFrom, and_assoc]

theorem bounds_of_mem_cellsFrom {lo : Nat} {l : List Host.Cell} (hl : cellsFrom lo l = true)
    {c : Host.Cell} (hc : c ∈ l) : lo ≤ c.1 ∧ c.1 < addressCount := by
  induction l generalizing lo with
  | nil => cases hc
  | cons d l ih =>
    obtain ⟨hlo, hlt, -, hl⟩ := cellsFrom_cons.mp hl
    rcases List.mem_cons.mp hc with rfl | hc
    · exact ⟨hlo, hlt⟩
    · obtain ⟨hle, hlt⟩ := ih hl hc
      exact ⟨by omega, hlt⟩

/-- In canonical form the addresses rise strictly. -/
theorem pairwise_of_cellsFrom {lo : Nat} {l : List Host.Cell} (hl : cellsFrom lo l = true) :
    l.Pairwise fun c d => c.1 < d.1 := by
  induction l generalizing lo with
  | nil => exact .nil
  | cons c l ih =>
    obtain ⟨-, -, -, hl⟩ := cellsFrom_cons.mp hl
    exact .cons (fun d hd => (bounds_of_mem_cellsFrom hl hd).1) (ih hl)

/-- In canonical form a cell is listed exactly when its address reads as its byte, which is not the
unlisted one. -/
theorem mem_cells_iff {lo : Nat} {l : List Host.Cell} (hl : cellsFrom lo l = true) {a : Nat} {b : Byte} :
    (a, b) ∈ l ↔ b ≠ unlistedByte ∧ readCells a l = b := by
  induction l generalizing lo with
  | nil => simp [readCells, eq_comm]
  | cons d l ih =>
    obtain ⟨k, c⟩ := d
    obtain ⟨-, -, hc, hl⟩ := cellsFrom_cons.mp hl
    by_cases hk : k = a
    · subst hk
      have hnot : (k, b) ∉ l := fun h => by
        have := (bounds_of_mem_cellsFrom hl h).1
        omega
      have hne : c = b → b ≠ unlistedByte := fun e => e ▸ hc
      simpa [readCells, hnot, eq_comm] using hne
    · simp [readCells, hk, ih hl, Ne.symm hk]

/-- A canonical memory that reads like another one lists no cell that the other does not. -/
theorem cells_subset {m₁ m₂ : Memory} (h₁ : m₁.wf = true) (h₂ : m₂.wf = true)
    (h : ∀ a : Word, m₁.read a.toNat = m₂.read a.toNat) : m₁.cells ⊆ m₂.cells := by
  intro c hc
  obtain ⟨hne, hread⟩ := (mem_cells_iff h₁).mp hc
  have hlt := (bounds_of_mem_cellsFrom h₁ hc).2
  have heq : m₁.read c.1 = m₂.read c.1 := h (BitVec.ofFin ⟨c.1, hlt⟩)
  exact (mem_cells_iff h₂).mpr ⟨hne, heq.symm.trans hread⟩

/-- Settles O44: both memories list the same cells, in rising order of address. -/
theorem canonicalMemoriesReadingAlikeAreEqual : Obligations.CanonicalMemoriesReadingAlikeAreEqual := by
  intro m₁ m₂ h₁ h₂ h
  have : Std.Irrefl fun c d : Host.Cell => c.1 < d.1 := ⟨fun c => Nat.lt_irrefl c.1⟩
  have : Std.Antisymm fun c d : Host.Cell => c.1 < d.1 := ⟨fun c d h h' => by omega⟩
  have hcells : m₁.cells = m₂.cells :=
    (cells_subset h₁ h₂ h).antisymm_of_pairwise (pairwise_of_cellsFrom h₁) (pairwise_of_cellsFrom h₂)
      (cells_subset h₂ h₁ fun a => (h a).symm)
  cases m₁
  cases m₂
  exact congrArg Memory.mk hcells

end Sys2Proof.Machine
end

section
/-! Proofs about memory (20_memory.md): reads and writes, the bytes the fetch sees, and what the
transactions of a step and of reset say of memory. -/

namespace Sys2Proof.Machine

/-! #### Reads and writes (R35, R41) -/

theorem State.readByte_writeByte (s : State) (a a' : Word) (b : Byte) :
    (s.writeByte a b).readByte a' = if a = a' then b else s.readByte a' := by
  by_cases h : a = a'
  · rw [if_pos h, h, State.readByte_writeByte_same]
  · rw [if_neg h, State.readByte_writeByte_other s b h]

/-- Settles O43, by induction on the writes from the last one on. -/
theorem readReturnsLatestWrite : Obligations.ReadReturnsLatestWrite := by
  intro ws s a
  induction ws using List.reverseRecOn with
  | nil => rfl
  | append_singleton ws w ih =>
    rw [List.foldl_append, List.foldl_cons, List.foldl_nil, State.readByte_writeByte, List.reverse_concat,
      List.find?_cons, ih]
    by_cases hw : w.1 = a
    · simp [hw]
    · rw [if_neg hw, beq_eq_false_iff_ne.mpr hw]

/-! #### The bytes of an instruction (R51, R57) -/

theorem instrLength_le (i : Instr) : instrLength i ≤ 3 := by
  rcases modeLength_cases i.mode with h | h | h <;> simp [instrLength, h]

/-- The bytes of an instruction: as many as its length, and they decode to it whatever follows them. -/
def DecodesTo (bytes : List Byte) (i : Instr) : Prop :=
  bytes.length = instrLength i ∧ ∀ rest, decode (bytes ++ rest) = .ok (i, rest)

/-- The opcode of an instruction's row and its operand bytes are its bytes. -/
theorem decodesTo_row {i : Instr} {row : OpRow} (h : row ∈ optable) (hmn : row.mnemonic = i.mnemonic)
    (hmode : row.mode = i.mode) : DecodesTo (row.opcode :: operandBytes row.length i.operand) i := by
  have hlen : row.length = instrLength i := by rw [length_of_mem optable_wellFormed h, hmode, instrLength]
  obtain ⟨hinstr, -, htake⟩ := Laws.Rebuild.all i
  refine ⟨?_, fun rest => decode_ok.mpr ⟨i.decoded, ?_, hinstr⟩⟩
  · rw [hlen, instrLength]
    rcases modeLength_cases i.mode with hl | hl | hl <;> simp [hl, operandBytes]
  · have hrow := rowOf_of_mem (opcodesDistinct_of_wellFormed optable_wellFormed) h
    simp only [List.cons_append, decodeWith, hrow, htake row rest hlen, hmn, hmode, Instr.decoded]

theorem decodesTo_of_encode {i : Instr} {bytes : List Byte} (h : encode i = some bytes) :
    DecodesTo bytes i := by
  obtain ⟨row, hrow, rfl⟩ := Option.map_eq_some_iff.mp h
  obtain ⟨hmem, hmn, hmode⟩ := rowFor_some hrow
  exact decodesTo_row hmem hmn hmode

/-- What decodes begins with bytes that decode to the same instruction whatever follows them. -/
theorem decode_ok_front {bytes rest : List Byte} {i : Instr} (h : decode bytes = .ok (i, rest)) :
    ∃ front, bytes = front ++ rest ∧ DecodesTo front i := by
  obtain ⟨d, hd, hi⟩ := decode_ok.mp h
  obtain ⟨op, more, row, rfl, hrow, htake, hmn, hmode⟩ := decodeWith_ok hd
  obtain ⟨hmem, rfl⟩ := rowOf_some hrow
  have hdec := instrOf_decoded (decodeWith_operandFits optable_wellFormed hd) hi
  subst hdec
  exact ⟨_, congrArg _ (takeOperand_ok htake).1, decodesTo_row hmem hmn.symm hmode.symm⟩

/-! #### The fetch (R45, R57) -/

/-- Memory holds bytes from an address on, the last one at the top of memory at the latest. -/
def Memory.Holds (m : Memory) (a : Nat) (bytes : List Byte) : Prop :=
  a + bytes.length ≤ addressCount ∧ ∀ k b, bytes[k]? = some b → m.read (a + k) = b

/-- An instruction whose bytes stand at PC is fetched. -/
theorem fetchDecode_of_holds {s : State} {i : Instr} {bytes : List Byte} (hi : DecodesTo bytes i)
    (hmem : s.mem.Holds s.pc.toNat bytes) : fetchDecode s = .ok i := by
  obtain ⟨hlen, hdec⟩ := hi
  obtain ⟨hfit, hread⟩ := hmem
  have hle : bytes.length ≤ 3 := hlen ▸ instrLength_le i
  have hpre : bytes <+: fetchBytes s := by
    refine List.prefix_iff_getElem?.mpr fun k hk => ?_
    rw [fetchBytes, bytesFrom_getElem?, if_pos ⟨by omega, by omega⟩,
      hread k _ (List.getElem?_eq_getElem hk)]
  obtain ⟨rest, hrest⟩ := hpre
  rw [fetchDecode, ← hrest, hdec]

/-- The bytes of the instruction fetched stand at PC. -/
theorem holds_of_fetchDecode {s : State} {i : Instr} (h : fetchDecode s = .ok i) :
    ∃ bytes, DecodesTo bytes i ∧ s.mem.Holds s.pc.toNat bytes := by
  unfold fetchDecode at h
  split at h
  · cases h
  · rename_i i' rest hdec
    cases h
    obtain ⟨bytes, hfetch, hi⟩ := decode_ok_front hdec
    have hread : ∀ k b, bytes[k]? = some b →
        s.pc.toNat + k < addressCount ∧ s.mem.read (s.pc.toNat + k) = b := by
      intro k b hk
      have hb : (fetchBytes s)[k]? = some b := by
        rw [hfetch, List.getElem?_append_left (List.getElem?_eq_some_iff.mp hk).1, hk]
      rw [fetchBytes, bytesFrom_getElem?] at hb
      split at hb
      · exact ⟨by omega, Option.some.inj hb⟩
      · cases hb
    refine ⟨bytes, hi, ?_, fun k b hk => (hread k b hk).2⟩
    rcases Nat.eq_zero_or_pos bytes.length with h0 | hpos
    · have := s.pc.isLt
      simp only [addressCount]
      omega
    · have := (hread (bytes.length - 1) _ (List.getElem?_eq_getElem (by omega))).1
      omega

theorem step_of_fetchDecode {s : State} {i : Instr} (hs : s.st = .running) (h : fetchDecode s = .ok i) :
    step s = exec i s := by
  rw [step_running hs, h]

/-- Settles O40: the fetch takes the encoding for the instruction, whatever bytes it gathers after it. -/
theorem stepRunsTheEncodedInstruction : Obligations.StepRunsTheEncodedInstruction := by
  intro s i bytes hs he hfit hread
  exact step_of_fetchDecode hs (fetchDecode_of_holds (decodesTo_of_encode he) ⟨hfit, hread⟩)

/-- STA abs with a successor stores A and goes on behind its three bytes. -/
theorem exec_staAbs {s : State} (v : Word) (h : hasSuccessor 3 s) :
    exec (.staAbs v) s = .next { s.writeByte v s.a with pc := s.pc + 3 } :=
  perform_completes (f := fun ea s => advance (s.writeByte ea s.a)) rfl
    ((successorOk_iff .sta 3 s).mpr (.inr (.inr h)))

/-- Settles O41: the store leaves the one byte of the next instruction where the next fetch reads. -/
theorem storedOpcodeRunsNext : Obligations.StoredOpcodeRunsNext := by
  intro s j hs hfit hsta hj
  refine ⟨_, (step_of_fetchDecode hs hsta).trans (exec_staAbs _ hfit), rfl, ?_⟩
  refine step_of_fetchDecode hs (fetchDecode_of_holds (decodesTo_of_encode hj) ⟨?_, fun k b hk => ?_⟩)
  · exact (s.pc + 3).isLt
  · obtain ⟨rfl, rfl⟩ : k = 0 ∧ s.a = b := by simpa [List.getElem?_singleton] using hk
    exact State.readByte_writeByte_same s (s.pc + 3) s.a

/-! #### What transactions do to memory, and their replies (R46) -/

/-- The memory that transactions leave, applied in their order. -/
def applyAll (l : List Transaction) (m : Memory) : Memory := l.foldl (fun m x => x.apply m) m

@[simp] theorem applyAll_nil (m : Memory) : applyAll [] m = m := rfl
@[simp] theorem applyAll_cons (t : Transaction) (l : List Transaction) (m : Memory) :
    applyAll (t :: l) m = applyAll l (t.apply m) := rfl
@[simp] theorem applyAll_append (l l' : List Transaction) (m : Memory) :
    applyAll (l ++ l') m = applyAll l' (applyAll l m) := List.foldl_append

@[simp] theorem applyAll_operandAccess (len : Nat) (s : State) (m : Memory) :
    applyAll (operandAccess len s) m = m := by
  unfold operandAccess
  split <;> rfl

@[simp] theorem applyAll_pointerAccess (mode : Option Mode) (v : Word) (s : State) (m : Memory) :
    applyAll (pointerAccess mode v s) m = m := by
  unfold pointerAccess
  split
  · rfl
  · rfl
  · split <;> rfl
  · rfl

@[simp] theorem applyAll_dataAccess (i : Instr) (s : State) (m : Memory) :
    applyAll (dataAccess i s) m = m := by
  unfold dataAccess
  split <;> (try split) <;> rfl

/-- Two memories answer transactions alike, each taken by itself. -/
def SameReplies (l : List Transaction) (m m' : Memory) : Prop := ∀ t ∈ l, t.reply m = t.reply m'

@[simp] theorem sameReplies_append {l l' : List Transaction} {m m' : Memory} :
    SameReplies (l ++ l') m m' ↔ SameReplies l m m' ∧ SameReplies l' m m' := List.forall_mem_append

@[simp] theorem sameReplies_nil (m m' : Memory) : SameReplies [] m m' := by simp [SameReplies]

@[simp] theorem sameReplies_read_cons {a : Word} {l : List Transaction} {m m' : Memory} :
    SameReplies (.read a :: l) m m' ↔ m.read a.toNat = m'.read a.toNat ∧ SameReplies l m m' := by
  simp [SameReplies]

/-- The replies to a step: its reads come before its writes, so each is answered from the memory at
the start. -/
theorem replies_transactions (s : State) (m : Memory) :
    replies m (transactions s) = (transactions s).map fun t => t.reply m := by
  obtain ⟨reads, writes, heq, hreads, hwrites⟩ := transactions_reads_writes s
  rw [heq, replies_reads_append hreads, replies_writes hwrites, List.map_append]

theorem sameReplies_of_replies_eq {s : State} {m : Memory}
    (h : replies m (transactions s) = replies s.mem (transactions s)) :
    SameReplies (transactions s) m s.mem := by
  rw [replies_transactions, replies_transactions] at h
  exact List.map_inj_left.mp h

/-! #### The transactions of a step, by stage (R91) -/

/-- Stages 4 and 5: the accesses to data, which an instruction that raises does not make. -/
def dataStages (i : Instr) (s : State) : List Transaction :=
  if raisedBy i s = none then dataAccess i s ++ writeAccess i s else []

theorem transactions_of_fetchDecode {s : State} {i : Instr} (hs : s.st = .running)
    (h : fetchDecode s = .ok i) :
    transactions s = opcodeAccess s ++ operandAccess (instrLength i) s ++
      pointerAccess i.mode i.operand s ++ dataStages i s := by
  simp only [transactions_running hs, h, dataStages]
  cases raisedBy i s <;> simp

theorem transactions_of_fetch_error {s : State} {e : DecodeError} (hs : s.st = .running)
    (h : fetchDecode s = .error e) : transactions s = opcodeAccess s := by
  rw [transactions_running hs, h]

/-! #### When an instruction raises (R72) -/

theorem raisedBy_eq_none_of_no_mode {i : Instr} (hm : i.mode = none) (s : State) :
    raisedBy i s = none ↔ successorOk i.mnemonic (modeLength none) s = true := by
  simp [raisedBy, instrLength, hm]

theorem raisedBy_eq_none_of_mode {i : Instr} {m : Mode} (hm : i.mode = some m) (s : State) :
    raisedBy i s = none ↔
      (∃ o, resolve m i.operand s = .ok o) ∧ successorOk i.mnemonic (modeLength (some m)) s = true := by
  cases h : resolve m i.operand s <;> simp [raisedBy, instrLength, hm, h]

theorem raisedBy_eq_none_of_memMode {i : Instr} {m : MemMode} (hm : i.mode = some (.mem m)) (s : State) :
    raisedBy i s = none ↔ (∃ ea, effectiveAddress m i.operand s = .ok ea) ∧
      successorOk i.mnemonic (modeLength (some (.mem m))) s = true := by
  rw [raisedBy_eq_none_of_mode hm]
  cases h : effectiveAddress m i.operand s with
  | ok ea => simp [resolve_mem_ok h]
  | error k => simp [resolve_mem_error h]

/-! #### Memory after an instruction is what its data stages leave (R91) -/

theorem writeAccess_of_loadedReg {i : Instr} {r : Reg} (hr : loadedReg i.mnemonic = some r) (s : State) :
    writeAccess i s = [] := by
  unfold writeAccess
  split <;> simp_all [loadedReg]

theorem writeAccess_of_storedReg {i : Instr} {r : Reg} (hr : storedReg i.mnemonic = some r) (s : State) :
    writeAccess i s = storeAccess r i s := by
  unfold writeAccess
  split <;> simp_all [storedReg]

theorem addressOf_of_mode {i : Instr} {m : MemMode} (hm : i.mode = some (.mem m)) {s : State} {ea : Word}
    (hea : effectiveAddress m i.operand s = .ok ea) : addressOf i s = some ea := by
  simp [addressOf, hm, hea]

theorem impliedHandler_mem_eq_writes {i : Instr} {f : State → Handled}
    (hf : impliedHandler i.mnemonic = some f) (s : State) :
    (settlePc 1 (f s)).mem = applyAll (writeAccess i s) s.mem := by
  unfold writeAccess
  generalize i.mnemonic = mn at hf ⊢
  cases mn <;> cases hf <;> rfl

/-- The skeleton leaves the memory that the data stages leave, when it completes exactly where they are
made and its handler writes what they write. -/
theorem perform_mem {α : Type} {mn : Mnemonic} {len : Nat} {r : Except Exc α} {f : α → State → Handled}
    {i : Instr} {s t : State}
    (hr : raisedBy i s = none ↔ (∃ x, r = .ok x) ∧ successorOk mn len s = true)
    (hf : ∀ x, r = .ok x → (settlePc len (f x s)).mem = applyAll (writeAccess i s) s.mem)
    (h : perform mn len r f s = .next t) : t.mem = applyAll (dataStages i s) s.mem := by
  unfold dataStages
  rcases perform_cases h with ⟨k, hk, ht⟩ | ⟨x, hx, hs, ht⟩ | ⟨x, hx, hs, ht⟩ <;> cases ht
  · rw [if_neg (by simp [hr, hk])]
    rfl
  · rw [if_pos (hr.mpr ⟨⟨x, hx⟩, hs⟩), hf x hx, applyAll_append, applyAll_dataAccess]
  · rw [if_neg (by simp [hr, hs])]
    rfl

theorem exec_mem {i : Instr} {s t : State} (h : exec i s = .next t) :
    t.mem = applyAll (dataStages i s) s.mem := by
  rcases instr_family i with ⟨r, m, hr, hm⟩ | ⟨r, m, hr, hm⟩ | ⟨m, hc, hm⟩ | ⟨f, hf, hm⟩ |
    ⟨v, rfl⟩ | ⟨v, rfl⟩ | ⟨v, rfl⟩
  · rw [exec_load hr hm] at h
    refine perform_mem (raisedBy_eq_none_of_mode hm s) (fun o _ => ?_) h
    simp [writeAccess_of_loadedReg hr]
  · rw [exec_store hr hm] at h
    refine perform_mem (raisedBy_eq_none_of_memMode hm s) (fun ea hea => ?_) h
    simp [writeAccess_of_storedReg hr, storeAccess, addressOf_of_mode hm hea]
  · rw [exec_compare hc hm] at h
    refine perform_mem (hc ▸ raisedBy_eq_none_of_mode hm s) (fun o _ => ?_) h
    simp [writeAccess, hc]
  · rw [exec_implied hf] at h
    refine perform_mem ?_ (fun _ _ => impliedHandler_mem_eq_writes hf s) h
    simpa [modeLength] using raisedBy_eq_none_of_no_mode hm s
  · exact perform_mem (raisedBy_eq_none_of_memMode rfl s) (fun _ _ => rfl) (exec_jmpAbs v s ▸ h)
  · exact perform_mem (raisedBy_eq_none_of_memMode rfl s) (fun _ _ => rfl) (exec_jmpInd v s ▸ h)
  · exact perform_mem (raisedBy_eq_none_of_memMode rfl s) (fun _ _ => rfl) (exec_jsrAbs v s ▸ h)

theorem writeAccess_eq_nil {i : Instr} (hi : i.mnemonic ∉ [Mnemonic.sta, .stx, .sty, .pha, .jsr])
    (s : State) : writeAccess i s = [] := by
  unfold writeAccess
  split <;> simp_all

/-- The frame of memory: an instruction that neither stores nor pushes leaves it as it is. -/
theorem exec_mem_of_no_store {i : Instr} {s t : State} (h : exec i s = .next t)
    (hi : i.mnemonic ∉ [Mnemonic.sta, .stx, .sty, .pha, .jsr]) : t.mem = s.mem := by
  rw [exec_mem h, dataStages, writeAccess_eq_nil hi]
  split <;> simp

/-- Settles O29, by the frame of memory. -/
theorem otherInstructionsLeaveMemory : Obligations.OtherInstructionsLeaveMemory :=
  fun _ _ _ hi h a => congrArg (·.read a.toNat) (exec_mem_of_no_store h hi)

/-- Memory after a step is what the transactions leave. -/
theorem step_mem {s t : State} (h : step s = .next t) : t.mem = applyAll (transactions s) s.mem := by
  cases hst : s.st with
  | halted k =>
    rw [step_halted hst] at h
    cases h
  | running =>
    cases hf : fetchDecode s with
    | ok i =>
      rw [step_of_fetchDecode hst hf] at h
      rw [transactions_of_fetchDecode hst hf, exec_mem h]
      simp [opcodeAccess]
    | error e =>
      rw [transactions_of_fetch_error hst hf]
      rcases step_cases h with ⟨k, rfl⟩ | ⟨i, hi, -⟩
      · rfl
      · cases hf.symm.trans hi

/-- Settles O45, by the memory after an instruction; the accesses before the data stages are reads. -/
theorem transactionsAccountForMemory : Obligations.TransactionsAccountForMemory := fun _ _ h => step_mem h

/-! #### Reset (R210) -/

/-- Settles O53: reset reads the two bytes of its vector and writes no memory. -/
theorem resetReadsItsVector : Obligations.ResetReadsItsVector := by
  refine ⟨rfl, fun a x y s u => ⟨rfl, fun h => ?_⟩⟩
  have hlo := h resetVector (by decide)
  have hhi := h (resetVector + 1) (by decide)
  simp only [applyReset, hlo, hhi]

/-! #### Decoding fails alike on bytes alike in opcode and number (R55, R57) -/

/-- Taking an operand fails only for want of bytes, when the row's length is one of R50's. -/
theorem takeOperand_eq_error {row : OpRow} (hrow : row ∈ optable) {bytes : List Byte} {e : DecodeError} :
    takeOperand row bytes = .error e ↔ e = .truncated ∧ bytes.length + 1 < row.length := by
  have hlen := length_of_mem optable_wellFormed hrow
  unfold takeOperand
  rcases modeLength_cases row.mode with hl | hl | hl <;> rw [hl] at hlen <;> simp only [hlen]
  · simp
  · cases bytes <;> simp [eq_comm]
  · rcases bytes with _ | ⟨b, _ | ⟨c, rest⟩⟩ <;> simp [eq_comm]

theorem decode_eq_error_of_row {op : Byte} {more : List Byte} {row : OpRow} {e : DecodeError}
    (hrow : rowOf optable op = some row) :
    decode (op :: more) = .error e ↔ takeOperand row more = .error e := by
  cases htake : takeOperand row more with
  | error e' => simp [decode, decodeWith, hrow, htake]
  | ok p =>
    obtain ⟨i, hi⟩ := optable_representable (rowOf_some hrow).1 p.1
    simp [decode, decodeWith, hrow, htake, hi]

theorem decode_error_congr {op : Byte} {more more' : List Byte} (hlen : more.length = more'.length)
    {e : DecodeError} (h : decode (op :: more) = .error e) : decode (op :: more') = .error e := by
  cases hrow : rowOf optable op with
  | none => simpa [decode, decodeWith, hrow] using h
  | some row =>
    rw [decode_eq_error_of_row hrow, takeOperand_eq_error (rowOf_some hrow).1] at h ⊢
    rwa [← hlen]

theorem length_bytesFrom (m m' : Memory) (a n : Nat) :
    (bytesFrom m a n).length = (bytesFrom m' a n).length := by
  induction n generalizing a with
  | zero => rfl
  | succ n ih =>
    unfold bytesFrom
    split
    · exact congrArg (· + 1) (ih (a + 1))
    · rfl

theorem Status.running_or_halted (q : Status) : q = .running ∨ ∃ k, q = .halted k := by
  cases q with
  | running => exact .inl rfl
  | halted k => exact .inr ⟨k, rfl⟩

/-! #### A step over another memory that gives the same replies (R46)

Each lemma says of one stage that with a memory `m` that answers the stage's reads alike the stage
does the same. -/

section OtherMemory

variable {s : State} {m : Memory}

theorem fetchDecode_error_with_mem {e : DecodeError} (hm : SameReplies (opcodeAccess s) m s.mem)
    (h : fetchDecode s = .error e) : fetchDecode { s with mem := m } = .error e := by
  have hop : State.readByte { s with mem := m } s.pc = s.readByte s.pc := by
    simpa [opcodeAccess, State.readByte] using hm
  unfold fetchDecode at h ⊢
  rw [fetchBytes_cons] at h ⊢
  rw [hop]
  split at h
  · rename_i e' hdec
    cases h
    rw [decode_error_congr (length_bytesFrom ..) hdec]
  · cases h

theorem mem_fetchAccess {len k : Nat} (hlen : len ≤ 3) (hk : k < len) :
    Transaction.read (s.pc + BitVec.ofNat 16 k) ∈ opcodeAccess s ++ operandAccess len s := by
  interval_cases len <;> interval_cases k <;> simp [opcodeAccess, operandAccess]

theorem fetchDecode_ok_with_mem {i : Instr}
    (hm : SameReplies (opcodeAccess s ++ operandAccess (instrLength i) s) m s.mem)
    (h : fetchDecode s = .ok i) : fetchDecode { s with mem := m } = .ok i := by
  obtain ⟨bytes, hi, hfit, hread⟩ := holds_of_fetchDecode h
  refine fetchDecode_of_holds hi ⟨hfit, fun k b hk => ?_⟩
  have hlt : k < bytes.length := (List.getElem?_eq_some_iff.mp hk).1
  have hpc : (s.pc + BitVec.ofNat 16 k).toNat = s.pc.toNat + k := by
    simp only [addressCount] at hfit
    exact pc_add_toNat (by omega)
  have hreply := hm _ (mem_fetchAccess (s := s) (instrLength_le i) (hi.1 ▸ hlt))
  simp only [reply_read, hpc, Option.some.injEq] at hreply
  rw [← hread k b hk, ← hreply]

theorem effectiveAddress_with_mem {mm : MemMode} {v : Word}
    (hm : SameReplies (pointerAccess (some (.mem mm)) v s) m s.mem) :
    effectiveAddress mm v { s with mem := m } = effectiveAddress mm v s := by
  cases mm with
  | indx | indy =>
    simp only [pointerAccess, sameReplies_read_cons] at hm
    simp only [effectiveAddress, zeroPagePointer, State.readByte, hm]
  | ind =>
    simp only [effectiveAddress, indTarget]
    cases hhi : indHighAt pageCross v with
    | error k => rfl
    | ok hiAt =>
      simp only [pointerAccess, hhi, sameReplies_read_cons] at hm
      simp only [State.readByte, hm]
  | _ => rfl

theorem resolve_with_mem {md : Mode} {v : Word} (hm : SameReplies (pointerAccess (some md) v s) m s.mem) :
    resolve md v { s with mem := m } = resolve md v s := by
  cases md with
  | imm => rfl
  | mem mm => simp only [resolve, effectiveAddress_with_mem hm]

section Stages

variable {i : Instr} (hp : SameReplies (pointerAccess i.mode i.operand s) m s.mem)
include hp

theorem raisedBy_with_mem : raisedBy i { s with mem := m } = raisedBy i s := by
  unfold raisedBy
  cases hmode : i.mode with
  | none => rfl
  | some md =>
    rw [hmode] at hp
    simp only [resolve_with_mem hp]
    rfl

theorem addressOf_with_mem : addressOf i { s with mem := m } = addressOf i s := by
  unfold addressOf
  rcases hmode : i.mode with _ | _ | mm
  · rfl
  · rfl
  · rw [hmode] at hp
    simp only [effectiveAddress_with_mem hp]

theorem dataStages_with_mem : dataStages i { s with mem := m } = dataStages i s := by
  unfold dataStages dataAccess writeAccess storeAccess
  simp only [raisedBy_with_mem hp, addressOf_with_mem hp]
  rfl

end Stages

theorem transactions_with_mem (hm : SameReplies (transactions s) m s.mem) :
    transactions { s with mem := m } = transactions s := by
  rcases s.st.running_or_halted with hst | ⟨k, hst⟩
  · cases hf : fetchDecode s with
    | error e =>
      rw [transactions_of_fetch_error hst hf] at hm ⊢
      exact transactions_of_fetch_error hst (fetchDecode_error_with_mem hm hf)
    | ok i =>
      rw [transactions_of_fetchDecode hst hf] at hm ⊢
      obtain ⟨⟨hfetch, hp⟩, -⟩ : (_ ∧ _) ∧ _ := by simpa only [sameReplies_append] using hm
      rw [transactions_of_fetchDecode (s := { s with mem := m }) hst
        (fetchDecode_ok_with_mem (sameReplies_append.mpr hfetch) hf), dataStages_with_mem hp]
      rfl
  · simp [transactions, hst]

/-! The next state over the other memory is the same but for memory. -/

@[simp] theorem State.getReg_with_mem (r : Reg) : ({ s with mem := m } : State).getReg r = s.getReg r := by
  cases r <;> rfl

/-- The skeleton over another memory: when resolving sees no difference and the handler, where it runs,
none but in memory, the answer differs in nothing but memory. -/
theorem perform_with_mem {α : Type} {mn : Mnemonic} {len : Nat} {r r' : Except Exc α}
    {f : α → State → Handled} {t : State} (hr : r' = r)
    (hf : ∀ x, r = .ok x → successorOk mn len s = true →
      ∃ m', settlePc len (f x { s with mem := m }) = { settlePc len (f x s) with mem := m' })
    (h : perform mn len r f s = .next t) :
    ∃ m', perform mn len r' f { s with mem := m } = .next { t with mem := m' } := by
  subst hr
  rcases perform_cases h with ⟨k, hk, ht⟩ | ⟨x, hx, hs, ht⟩ | ⟨x, hx, hs, ht⟩ <;> cases ht
  · exact ⟨m, perform_resolve_raises hk⟩
  · obtain ⟨m', hm'⟩ := hf x hx hs
    exact ⟨m', (perform_completes (s := { s with mem := m }) hx hs).trans (congrArg _ hm')⟩
  · exact ⟨m, perform_successor_raises hx hs⟩

/-- A load or CMP reads its operand value as a data access. -/
theorem operandValue_with_mem {i : Instr} {md : Mode} {o : Resolved} (hmode : i.mode = some md)
    (ho : resolve md i.operand s = .ok o)
    (hdata : ∀ ea, addressOf i s = some ea → m.read ea.toNat = s.mem.read ea.toNat) :
    operandValue o { s with mem := m } = operandValue o s := by
  cases md with
  | imm =>
    cases ho
    rfl
  | mem mm =>
    cases hea : effectiveAddress mm i.operand s with
    | error k => cases ho.symm.trans (resolve_mem_error hea)
    | ok ea =>
      cases ho.symm.trans (resolve_mem_ok hea)
      exact hdata ea (addressOf_of_mode hmode hea)

theorem reader_of_loadedReg {mn : Mnemonic} {r : Reg} (h : loadedReg mn = some r) :
    mn ∈ [Mnemonic.lda, .ldx, .ldy, .cmp] := by
  cases mn <;> cases h <;> decide

theorem dataAccess_of_reader {i : Instr} (hi : i.mnemonic ∈ [Mnemonic.lda, .ldx, .ldy, .cmp]) {ea : Word}
    (hea : addressOf i s = some ea) : dataAccess i s = [.read ea] := by
  unfold dataAccess
  split <;> simp_all

/-- The handlers of the instructions without a mode look at memory for PLA and RTS alone, which read
the stack. -/
theorem impliedHandler_with_mem {i : Instr} {f : State → Handled}
    (hf : impliedHandler i.mnemonic = some f) (hdata : SameReplies (dataAccess i s) m s.mem) :
    ∃ m', settlePc 1 (f { s with mem := m }) = { settlePc 1 (f s) with mem := m' } := by
  unfold dataAccess at hdata
  generalize i.mnemonic = mn at hf hdata
  cases mn with
  | pla =>
    cases hf
    simp only [sameReplies_read_cons] at hdata
    exact ⟨m, by simp only [settlePc_advance, pull_byte, pull_state, State.setReg, State.readByte, hdata]⟩
  | rts =>
    cases hf
    have : s.sp + 1 + 1 = s.sp + 2 := by rw [BitVec.add_assoc]; rfl
    simp only [sameReplies_read_cons] at hdata
    exact ⟨m, by simp only [settlePc_jumpTo, pull_byte, pull_state, State.readByte, this, hdata]⟩
  | _ => cases hf <;> exact ⟨_, rfl⟩

theorem exec_with_mem {i : Instr} {t : State}
    (hp : SameReplies (pointerAccess i.mode i.operand s) m s.mem)
    (hd : SameReplies (dataStages i s) m s.mem) (h : exec i s = .next t) :
    ∃ m', exec i { s with mem := m } = .next { t with mem := m' } := by
  have hdata : raisedBy i s = none → SameReplies (dataAccess i s) m s.mem := fun hn => by
    rw [dataStages, if_pos hn, sameReplies_append] at hd
    exact hd.1
  have hread : i.mnemonic ∈ [Mnemonic.lda, .ldx, .ldy, .cmp] → raisedBy i s = none →
      ∀ ea, addressOf i s = some ea → m.read ea.toNat = s.mem.read ea.toNat := fun hi hn ea hea => by
    simpa [dataAccess_of_reader hi hea] using hdata hn
  rcases instr_family i with ⟨r, md, hr, hm⟩ | ⟨r, mm, hr, hm⟩ | ⟨md, hc, hm⟩ | ⟨f, hf, hm⟩ |
    ⟨v, rfl⟩ | ⟨v, rfl⟩ | ⟨v, rfl⟩
  · rw [exec_load hr hm] at h ⊢
    refine perform_with_mem (resolve_with_mem (hm ▸ hp)) (fun o ho hs => ⟨m, ?_⟩) h
    have hn := (raisedBy_eq_none_of_mode hm s).mpr ⟨⟨o, ho⟩, hs⟩
    rw [operandValue_with_mem hm ho (hread (reader_of_loadedReg hr) hn)]
    cases r <;> rfl
  · rw [exec_store hr hm] at h ⊢
    refine perform_with_mem (effectiveAddress_with_mem (hm ▸ hp)) (fun ea _ _ => ?_) h
    exact ⟨m.write ea.toNat (s.getReg r), by rw [State.getReg_with_mem]; rfl⟩
  · rw [exec_compare hc hm] at h ⊢
    refine perform_with_mem (resolve_with_mem (hm ▸ hp)) (fun o ho hs => ⟨m, ?_⟩) h
    have hn := (raisedBy_eq_none_of_mode hm s).mpr ⟨⟨o, ho⟩, hc ▸ hs⟩
    rw [operandValue_with_mem hm ho (hread (by simp [hc]) hn)]
    rfl
  · rw [exec_implied hf] at h ⊢
    refine perform_with_mem rfl (fun _ _ hs => impliedHandler_with_mem hf (hdata ?_)) h
    exact (raisedBy_eq_none_of_no_mode hm s).mpr hs
  · rw [exec_jmpAbs] at h ⊢
    exact perform_with_mem (effectiveAddress_with_mem hp) (fun _ _ _ => ⟨m, rfl⟩) h
  · rw [exec_jmpInd] at h ⊢
    exact perform_with_mem (effectiveAddress_with_mem hp) (fun _ _ _ => ⟨m, rfl⟩) h
  · rw [exec_jsrAbs] at h ⊢
    exact perform_with_mem rfl (fun _ _ _ => ⟨_, rfl⟩) h

theorem step_with_mem {t : State} (hm : SameReplies (transactions s) m s.mem) (h : step s = .next t) :
    ∃ m', step { s with mem := m } = .next { t with mem := m' } := by
  rcases s.st.running_or_halted with hst | ⟨k, hst⟩
  · cases hf : fetchDecode s with
    | error e =>
      rw [transactions_of_fetch_error hst hf] at hm
      rw [step_running hst, hf] at h
      rw [step_running (s := { s with mem := m }) hst, fetchDecode_error_with_mem hm hf]
      cases e <;> cases h <;> exact ⟨m, rfl⟩
    | ok i =>
      rw [transactions_of_fetchDecode hst hf] at hm
      obtain ⟨⟨hfetch, hp⟩, hd⟩ : (_ ∧ _) ∧ _ := by simpa only [sameReplies_append] using hm
      rw [step_of_fetchDecode hst hf] at h
      rw [step_of_fetchDecode (s := { s with mem := m }) hst
        (fetchDecode_ok_with_mem (sameReplies_append.mpr hfetch) hf)]
      exact exec_with_mem hp hd h
  · cases (step_halted hst).symm.trans h

end OtherMemory

/-- Settles O60: each stage sees memory through its own reads alone, and the memory after is what the
transactions leave (O45). -/
theorem engineSeesMemoryThroughReplies : Obligations.EngineSeesMemoryThroughReplies := by
  refine ⟨fun _ _ _ => ⟨rfl, rfl⟩, replies_transactions, fun _ _ _ s => ⟨_, _, rfl, rfl⟩, fun s m hrep => ?_⟩
  have hm := sameReplies_of_replies_eq hrep
  have htrans := transactions_with_mem hm
  refine ⟨htrans, fun t h => ?_⟩
  obtain ⟨m', hstep⟩ := step_with_mem hm h
  have hmem : m' = applyAll (transactions { s with mem := m }) m := step_mem hstep
  rw [hstep, hmem, htrans]
  rfl

end Sys2Proof.Machine
end

section
/-! Proofs about the encoding (30_encoding.md): the round trips of the decoder and the encoder, the undefined
opcodes, and the engine built from an opcode table. -/

namespace Sys2Proof.Machine

/-! #### The decoder reads the encoder's bytes back (R51, R52, R57) -/

/-- Over a well-formed table the opcode of a row and the operand bytes of an operand that fits decode to the
row's pair with that operand, whatever follows them. -/
theorem decodeWith_row {t : OpTable} (ht : OpTable.wellFormed t = true) {d : Decoded}
    (hd : d.operandFits = true) {row : OpRow} (h : row ∈ t) (hmn : row.mnemonic = d.mnemonic)
    (hmode : row.mode = d.mode) (rest : List Byte) :
    decodeWith t (row.opcode :: operandBytes row.length d.operand ++ rest) = .ok (d, rest) := by
  have hrow := rowOf_of_mem (opcodesDistinct_of_wellFormed ht) h
  have htake := takeOperand_operandBytes hd (hmode ▸ length_of_mem ht h) rest
  simp only [List.cons_append, decodeWith, hrow, htake, hmn, hmode]

theorem decodeWith_of_encodeWith {t : OpTable} (ht : OpTable.wellFormed t = true) {d : Decoded}
    (hd : d.operandFits = true) {bytes : List Byte} (h : encodeWith t d = some bytes) (rest : List Byte) :
    decodeWith t (bytes ++ rest) = .ok (d, rest) := by
  obtain ⟨row, hrow, rfl⟩ := Option.map_eq_some_iff.mp h
  obtain ⟨hmem, hmn, hmode⟩ := rowFor_some hrow
  exact decodeWith_row ht hd hmem hmn hmode rest

/-- The operand value of an instruction fits its mode: it is given back by the bytes its length keeps. -/
theorem decoded_operandFits (i : Instr) : i.decoded.operandFits = true := by
  have hop : i.operand = _ := instrOf_operand (Laws.Rebuild.all i).1
  rcases modeLength_cases i.mode with hl | hl | hl <;> simp only [hl] at hop <;>
    simp only [Decoded.operandFits, Instr.decoded, hl, beq_iff_eq]
  · exact hop
  · rw [hop, ← joinBytes_zero, highByte_joinBytes]

/-- OPTABLE has a row for every instruction. -/
theorem exists_rowFor (i : Instr) : ∃ row, rowFor optable i.decoded = some row := by
  cases i <;> exact ⟨_, rfl⟩

theorem exists_encode (i : Instr) : ∃ bytes, encode i = some bytes := by
  obtain ⟨row, hrow⟩ := exists_rowFor i
  exact ⟨_, Option.map_eq_some_iff.mpr ⟨row, hrow, rfl⟩⟩

/-- Settles O1, by the row that the encoder looks up: its opcode looks the same row up again, and the operand
bytes give the operand back. -/
theorem decodeInvertsEncode : Obligations.DecodeInvertsEncode := by
  refine ⟨fun t d bytes rest ht hd h => decodeWith_of_encodeWith ht hd h rest, fun i rest => ?_⟩
  obtain ⟨bytes, hbytes⟩ := exists_encode i
  exact ⟨decoded_operandFits i, bytes, hbytes, (decodesTo_of_encode hbytes).2 rest⟩

/-- Settles O3: OPTABLE has a row for every instruction, and the row's length is its mode's. -/
theorem everyInstructionEncodes : Obligations.EveryInstructionEncodes := by
  intro i
  obtain ⟨row, hrow⟩ := exists_rowFor i
  obtain ⟨bytes, hbytes⟩ := exists_encode i
  have hlen := (decodesTo_of_encode hbytes).1
  refine ⟨?_, bytes, hbytes, hlen, ?_⟩
  · simp only [Instr.wellFormed, Instr.wellFormedIn, Decoded.wellFormedIn, hrow, Option.isSome_some,
      decoded_operandFits, Bool.and_self]
  · rcases modeLength_cases i.mode with hl | hl | hl <;> simp [hlen, instrLength, hl]

/-! #### What is read is an encoding (R54, R55) -/

/-- No pair of mnemonic and mode has two rows in OPTABLE, so the encoder finds each row by its pair. -/
theorem rowFor_of_mem {d : Decoded} {row : OpRow} (h : row ∈ optable) (hmn : row.mnemonic = d.mnemonic)
    (hmode : row.mode = d.mode) : rowFor optable d = some row := by
  have key : ∀ q ∈ optable, rowFor optable ⟨q.mnemonic, q.mode, 0⟩ = some q := by decide
  have hq := key row h
  rw [hmn, hmode] at hq
  exact hq

/-- What decodes over OPTABLE begins with the opcode of the instruction's row, and the operand is taken from
the bytes after it. -/
theorem decode_ok_row {bytes rest : List Byte} {i : Instr} (h : decode bytes = .ok (i, rest)) :
    ∃ row more, row ∈ optable ∧ bytes = row.opcode :: more ∧
      takeOperand row more = .ok (i.operand, rest) ∧ row.mnemonic = i.mnemonic ∧ row.mode = i.mode := by
  obtain ⟨d, hd, hi⟩ := decode_ok.mp h
  obtain ⟨op, more, row, rfl, hrow, htake, hmn, hmode⟩ := decodeWith_ok hd
  obtain ⟨hmem, rfl⟩ := rowOf_some hrow
  have hdec := instrOf_decoded (decodeWith_operandFits optable_wellFormed hd) hi
  subst hdec
  exact ⟨row, more, hmem, rfl, htake, hmn.symm, hmode.symm⟩

/-- Settles O2: the row the decoder found is the one the encoder finds. -/
theorem encodeInvertsDecode : Obligations.EncodeInvertsDecode := by
  intro bytes rest i h
  obtain ⟨row, more, hmem, rfl, htake, hmn, hmode⟩ := decode_ok_row h
  have hrow : rowFor optable i.decoded = some row := rowFor_of_mem hmem hmn hmode
  exact ⟨_, Option.map_eq_some_iff.mpr ⟨row, hrow, rfl⟩, congrArg _ (takeOperand_ok htake).1⟩

theorem length_operandBytes {len : Nat} (hpos : 1 ≤ len) (hle : len ≤ 3) (v : Word) :
    (operandBytes len v).length + 1 = len := by
  interval_cases len <;> rfl

/-- Settles O4: one opcode byte looks up one row, which gives mnemonic, mode and length. -/
theorem opcodeByteFixesInstructionShape : Obligations.OpcodeByteFixesInstructionShape := by
  intro t op more₁ more₂ rest₁ rest₂ d₁ d₂ ht h₁ h₂
  obtain ⟨_, _, row, ⟨⟩, hrow, htake, hmn₁, hmode₁⟩ := decodeWith_ok h₁
  obtain ⟨_, _, row₂, ⟨⟩, hrow₂, -, hmn₂, hmode₂⟩ := decodeWith_ok h₂
  obtain rfl : row = row₂ := Option.some.inj (hrow.symm.trans hrow₂)
  obtain ⟨hmore, hpos, hle⟩ := takeOperand_ok htake
  rw [hmode₁, ← length_of_mem ht (rowOf_some hrow).1]
  exact ⟨hmn₁.trans hmn₂.symm, hmode₂.symm, hpos, hle, _, hmore, length_operandBytes hpos hle _⟩

/-- Settles O5, by the length of the row that the opcode looks up. -/
theorem operandBytesAreLittleEndian : Obligations.OperandBytesAreLittleEndian := by
  intro op b1 b2 rest i h
  obtain ⟨row, more, hmem, hbytes, htake, -, hmode⟩ := decode_ok_row h
  cases hbytes
  have hlen : row.length = instrLength i := by rw [length_of_mem optable_wellFormed hmem, hmode, instrLength]
  refine ⟨fun hl => ?_, fun hl => ?_, fun hl => ?_⟩ <;>
    simp only [takeOperand, hlen, hl, Except.ok.injEq, Prod.mk.injEq] at htake <;>
    obtain ⟨hv, rfl⟩ := htake
  · rfl
  · exact ⟨hv ▸ zext_toNat b1, rfl⟩
  · exact ⟨hv ▸ joinBytes_toNat b2 b1, rfl⟩

/-- Settles O6: each word is decoded by evaluation. -/
theorem specWordsDecode : Obligations.SpecWordsDecode :=
  ⟨rfl, rfl, rfl, rfl, rfl, rfl, rfl, rfl, rfl, rfl, rfl⟩

/-! #### The undefined opcodes (R55) -/

/-- The bytes outside the spec's list of undefined opcodes are, in rising order, the opcodes of OPTABLE. -/
theorem definedOpcodes_eq :
    ((List.range 256).filter fun n => !undefinedOpcode (BitVec.ofNat 8 n)) =
      optable.map fun r => r.opcode.toNat := by
  decide

/-- The undefined opcodes are the bytes without a row in OPTABLE. -/
theorem undefinedOpcode_iff {op : Byte} : undefinedOpcode op = true ↔ rowOf optable op = none := by
  have hdef : op.toNat ∈ optable.map (fun r => r.opcode.toNat) ↔ undefinedOpcode op = false := by
    rw [← definedOpcodes_eq]
    simp [op.isLt]
  have hrow : rowOf optable op = none ↔ op.toNat ∉ optable.map fun r => r.opcode.toNat := by
    simp [rowOf, BitVec.toNat_inj]
  rw [hrow, hdef, Bool.not_eq_false]

/-- Of the 256 bytes 54 are opcodes of OPTABLE. -/
theorem length_undefinedOpcodes :
    ((List.range 256).filter fun n => undefinedOpcode (BitVec.ofNat 8 n)).length = 202 := by
  have hsplit := List.length_eq_length_filter_add (l := List.range 256)
    fun n => undefinedOpcode (BitVec.ofNat 8 n)
  have hrows : optable.length = 54 := rfl
  rw [definedOpcodes_eq, List.length_range, List.length_map, hrows] at hsplit
  omega

theorem fetchDecode_of_rowOf_none {s : State} (h : rowOf optable (s.readByte s.pc) = none) :
    fetchDecode s = .error (.invalidOpcode (s.readByte s.pc)) := by
  simp only [fetchDecode, fetchBytes_cons, decode, decodeWith, h]

theorem rowOf_of_fetchDecode_invalid {s : State} {op : Byte}
    (h : fetchDecode s = .error (.invalidOpcode op)) : rowOf optable (s.readByte s.pc) = none := by
  unfold fetchDecode at h
  split at h
  · rename_i e hdec
    cases h
    exact decode_invalidOpcode (fetchBytes_cons s ▸ hdec)
  · cases h

theorem impliedHandler_st {mn : Mnemonic} {f : State → Handled} (hf : impliedHandler mn = some f)
    (s : State) : (settlePc 1 (f s)).st = s.st := by
  cases mn <;> cases hf <;> rfl

/-- An instruction raises AddressOutOfRange or leaves ST as it was. -/
theorem exec_st {i : Instr} {s t : State} (h : exec i s = .next t) :
    t = { s with st := .halted .addressOutOfRange } ∨ t.st = s.st := by
  cases exec_effect h with
  | raised => exact .inl rfl
  | loaded hr => exact .inr (State.setReg_st ..)
  | implied hf hm => exact .inr (impliedHandler_st hf s)
  | _ => exact .inr rfl

/-- A step of a running engine that halts it on InvalidOpcode found no row for the byte at PC. -/
theorem rowOf_of_step_invalid {s t : State} (hs : s.st = .running) (h : step s = .next t)
    (ht : t.st = .halted .invalidOpcode) : rowOf optable (s.readByte s.pc) = none := by
  cases hf : fetchDecode s with
  | ok i =>
    rcases exec_st ((step_of_fetchDecode hs hf).symm.trans h) with rfl | hst
    · cases ht
    · rw [ht, hs] at hst
      cases hst
  | error e =>
    simp only [step_running hs, hf] at h
    cases e with
    | invalidOpcode op => exact rowOf_of_fetchDecode_invalid hf
    | truncated => cases h; cases ht
    | malformedTable => cases h

/-- Settles O35: the bytes of the list are those without a row, and only for want of a row does a step raise
InvalidOpcode. -/
theorem undefinedOpcodeHalts : Obligations.UndefinedOpcodeHalts := by
  refine ⟨length_undefinedOpcodes, fun s hs => ?_⟩
  rw [undefinedOpcode_iff]
  refine ⟨⟨fun h => ?_, fun h => rowOf_of_step_invalid hs h rfl⟩, fun h => ?_⟩
  · rw [step_running hs, fetchDecode_of_rowOf_none h]
    rfl
  · exact transactions_of_fetch_error hs (fetchDecode_of_rowOf_none h)

/-! #### The construction of an engine (R56) -/

theorem lengthsMatch_iff {t : OpTable} :
    OpTable.lengthsMatch t = true ↔ ∀ r ∈ t, r.length = modeLength r.mode := by
  simp [OpTable.lengthsMatch]

theorem pairsAdmissible_iff {t : OpTable} :
    OpTable.pairsAdmissible t = true ↔ ∀ r ∈ t, r.mode ∈ admissibleModes r.mnemonic := by
  simp [OpTable.pairsAdmissible, admissible_iff]

/-- The three conditions of R56 as propositions. -/
theorem wellFormed_iff {t : OpTable} :
    OpTable.wellFormed t = true ↔ t.Pairwise (fun r q => r.opcode ≠ q.opcode) ∧
      (∀ r ∈ t, r.length = modeLength r.mode) ∧ ∀ r ∈ t, r.mode ∈ admissibleModes r.mnemonic := by
  rw [OpTable.wellFormed, Bool.and_eq_true, Bool.and_eq_true, opcodesDistinct_iff, lengthsMatch_iff,
    pairsAdmissible_iff, and_assoc]

/-- The condition of R56 that a refusal names. -/
def refusedCondition : TableError → OpTable → Bool
  | .duplicateOpcode => OpTable.opcodesDistinct
  | .wrongLength => OpTable.lengthsMatch
  | .inadmissiblePair => OpTable.pairsAdmissible

/-- A refusal is right about its rows: they fail the condition it names. -/
theorem buildEngine_error {rows : OpTable} {e : TableError} (h : buildEngine rows = .error e) :
    ¬ refusedCondition e rows = true := by
  unfold buildEngine OpTable.construct at h
  by_cases hop : OpTable.opcodesDistinct rows = true
  · by_cases hlen : OpTable.lengthsMatch rows = true
    · by_cases hpair : OpTable.pairsAdmissible rows = true
      · simp [hop, hlen, hpair] at h
      · simp only [hop, hlen, hpair] at h
        cases h
        exact hpair
    · simp only [hop, hlen] at h
      cases h
      exact hlen
  · simp only [hop] at h
    cases h
    exact hop

theorem exists_buildEngine_iff {rows : OpTable} :
    (∃ f, buildEngine rows = .ok f) ↔ OpTable.wellFormed rows = true := by
  simp [buildEngine_ok]

/-- Settles O54, by the three conditions of R56 as propositions; the counts are evaluated. -/
theorem tablesAreRefusedAtConstruction : Obligations.TablesAreRefusedAtConstruction := by
  refine ⟨fun rows => ⟨exists_buildEngine_iff.trans wellFormed_iff, ?_, ?_, ?_⟩,
    exists_buildEngine_iff.mpr optable_wellFormed, by decide, by decide⟩
  · exact fun h => mt opcodesDistinct_iff.mpr (buildEngine_error h)
  · intro h
    simpa only [not_forall, exists_prop] using mt lengthsMatch_iff.mpr (buildEngine_error h)
  · intro h
    simpa only [not_forall, exists_prop] using mt pairsAdmissible_iff.mpr (buildEngine_error h)

/-! #### What a built engine runs (R57, R73) -/

/-- The operand bytes of a row that are in memory are taken as a little-endian value (R52). -/
theorem takeOperand_bytesFrom {row : OpRow} (hl : row.length = modeLength row.mode) (m : Memory) {a : Nat}
    (hfit : a + row.length - 1 ≤ 0xFFFF) :
    ∃ v rest, takeOperand row (bytesFrom m (a + 1) 2) = .ok (v, rest) ∧
      (row.length = 1 → v = 0) ∧
      (row.length = 2 → v.toNat = (m.read (a + 1)).toNat) ∧
      (row.length = 3 → v.toNat = 256 * (m.read (a + 2)).toNat + (m.read (a + 1)).toNat) := by
  rcases modeLength_cases row.mode with h | h | h <;> rw [h] at hl <;> rw [hl] at hfit ⊢ <;>
    simp only [takeOperand, hl]
  · exact ⟨0, _, rfl, by simp⟩
  · have h1 : a + 1 < addressCount := by simp only [addressCount]; omega
    simp only [bytesFrom, h1, if_true]
    exact ⟨_, _, rfl, by simp⟩
  · have h1 : a + 1 < addressCount := by simp only [addressCount]; omega
    have h2 : a + 1 + 1 < addressCount := by simp only [addressCount]; omega
    simp only [bytesFrom, h1, h2, if_true]
    exact ⟨_, _, rfl, by simp⟩

/-- The step over a well-formed table of a running engine has a next state: a failed decode raises, and the
pair of a row is admissible. -/
theorem stepWith_next {t : OpTable} (ht : OpTable.wellFormed t = true) {s : State} (hs : s.st = .running) :
    ∃ u, stepWith t s = .next u := by
  rw [stepWith_running hs]
  cases hdec : decodeWith t (fetchBytes s) with
  | error e => rcases decodeWith_error ht hdec with rfl | ⟨op, rfl⟩ <;> exact ⟨_, rfl⟩
  | ok p =>
    obtain ⟨op, more, row, -, hrow, -, hmn, hmode⟩ := decodeWith_ok hdec
    refine execDecoded_next ?_ s
    rw [hmn, hmode]
    exact admissible_of_mem ht (rowOf_some hrow).1

/-- Settles O55: the opcode at PC looks its row up, and the operand is taken from the bytes after it. -/
theorem builtEnginesRunEveryRow : Obligations.BuiltEnginesRunEveryRow := by
  intro rows f s hbuild hs
  obtain ⟨ht, rfl⟩ := buildEngine_ok.mp hbuild
  refine ⟨stepWith_next ht hs, fun row hmem hop hfit => ?_⟩
  obtain ⟨v, rest, htake, hv⟩ := takeOperand_bytesFrom (length_of_mem ht hmem) s.mem hfit
  have hrow := rowOf_of_mem (opcodesDistinct_of_wellFormed ht) hmem
  refine ⟨v, ?_, hv⟩
  simp only [stepWith_running hs, fetchBytes_cons, decodeWith, hop, hrow, htake]

/-! #### The meaning of an instruction through the skeleton (R71, R72) -/

theorem successorOk_iff_hasSuccessor {mn : Mnemonic} (h : needsSuccessor mn = true) (len : Nat) (s : State) :
    successorOk mn len s = true ↔ hasSuccessor len s := by
  rw [successorOk, h]
  exact decide_eq_true_iff.trans Nat.lt_succ_iff

/-- All three answers of the skeleton for a mnemonic that needs its successor: complete, the exception of the
successor check, the exception of resolving. -/
theorem perform_meaning {α : Type} {mn : Mnemonic} (h : needsSuccessor mn = true) (len : Nat)
    (r : Except Exc α) (f : α → State → Handled) (s : State) :
    (∀ x, r = .ok x → hasSuccessor len s → perform mn len r f s = .next (settlePc len (f x s))) ∧
    (∀ x, r = .ok x → ¬ hasSuccessor len s → perform mn len r f s = raise .addressOutOfRange s) ∧
    (∀ k, r = .error k → perform mn len r f s = raise k s) := by
  have hsucc := successorOk_iff_hasSuccessor h len s
  refine ⟨fun x hx hs => perform_completes hx (hsucc.mpr hs), fun x hx hs => ?_,
    fun k hk => perform_resolve_raises hk⟩
  exact perform_successor_raises hx (Bool.not_eq_true _ ▸ mt hsucc.mp hs)

theorem needsSuccessor_of_loadedReg {mn : Mnemonic} {r : Reg} (h : loadedReg mn = some r) :
    needsSuccessor mn = true := by
  cases mn <;> cases h <;> rfl

theorem needsSuccessor_of_storedReg {mn : Mnemonic} {r : Reg} (h : storedReg mn = some r) :
    needsSuccessor mn = true := by
  cases mn <;> cases h <;> rfl

theorem loadedReg_of_mem {mn : Mnemonic} {r : Reg}
    (h : (mn, r) ∈ [(Mnemonic.lda, Reg.a), (.ldx, .x), (.ldy, .y)]) : loadedReg mn = some r := by
  simp only [List.mem_cons, List.not_mem_nil, or_false, Prod.mk.injEq] at h
  rcases h with ⟨rfl, rfl⟩ | ⟨rfl, rfl⟩ | ⟨rfl, rfl⟩ <;> rfl

theorem storedReg_of_mem {mn : Mnemonic} {r : Reg}
    (h : (mn, r) ∈ [(Mnemonic.sta, Reg.a), (.stx, .x), (.sty, .y)]) : storedReg mn = some r := by
  simp only [List.mem_cons, List.not_mem_nil, or_false, Prod.mk.injEq] at h
  rcases h with ⟨rfl, rfl⟩ | ⟨rfl, rfl⟩ | ⟨rfl, rfl⟩ <;> rfl

/-- The flags of a comparison, in unsigned arithmetic (R150). -/
theorem compareFlags_eq (a value : Byte) (f : Flags) :
    compareFlags a value f = { f with
      c := decide (value.toNat ≤ a.toNat)
      z := decide (a.toNat = value.toNat)
      n := decide (0x80 ≤ a.toNat) } := by
  simp [compareFlags, BitVec.le_def, BitVec.toNat_inj]

/-- Settles O56: each family runs its own handler through the skeleton, whatever the mode. -/
theorem everyAdmissiblePairHasItsMeaning : Obligations.EveryAdmissiblePairHasItsMeaning := by
  refine ⟨fun mn r m v s hmn _ => ?_, fun mn r m v s hmn _ => ?_, fun m v s _ => ?_⟩
  · have hr := loadedReg_of_mem hmn
    obtain ⟨hdone, hraise⟩ := perform_meaning (needsSuccessor_of_loadedReg hr) (modeLength (some m))
      (resolve m v s) (fun o s => advance (s.setReg r (operandValue o s))) s
    rw [execDecoded_load hr]
    refine ⟨fun o ho hs => (hdone o ho hs).trans ?_, hraise⟩
    rw [settlePc_advance, State.setReg_pc]
  · have hr := storedReg_of_mem hmn
    rw [execDecoded_store hr]
    exact perform_meaning (needsSuccessor_of_storedReg hr) (modeLength (some (.mem m)))
      (effectiveAddress m v s) (fun ea s => advance (s.writeByte ea (s.getReg r))) s
  · obtain ⟨hdone, hraise⟩ := perform_meaning (mn := .cmp) rfl (modeLength (some m)) (resolve m v s)
      (fun o s => advance { s with flags := compareFlags s.a (operandValue o s) s.flags }) s
    rw [execDecoded_compare]
    refine ⟨fun o ho hs => (hdone o ho hs).trans ?_, hraise⟩
    rw [settlePc_advance, compareFlags_eq]

/-! #### The machine is the engine built from OPTABLE (R54, R71) -/

theorem exec_eq_execDecoded (i : Instr) (s : State) : exec i s = execDecoded i.decoded s := by
  cases i <;> rfl

theorem stepWith_optable (s : State) : stepWith optable s = step s := by
  rcases s.st.running_or_halted with hs | ⟨k, hs⟩
  · rw [stepWith_running hs, step_running hs, fetchDecode, decode]
    cases hdec : decodeWith optable (fetchBytes s) with
    | error e => rfl
    | ok p =>
      obtain ⟨d, rest⟩ := p
      obtain ⟨op, more, row, -, hrow, -, hmn, hmode⟩ := decodeWith_ok hdec
      obtain ⟨i, hi⟩ := optable_representable (rowOf_some hrow).1 d.operand
      rw [← hmn, ← hmode] at hi
      have hd := instrOf_decoded (decodeWith_operandFits optable_wellFormed hdec) hi
      simp only [hi, exec_eq_execDecoded, hd]
  · rw [stepWith_halted hs, step_halted hs]

/-- Settles O58: OPTABLE is accepted, and its decoded triples are its instructions. -/
theorem machineIsBuiltFromOptable : Obligations.MachineIsBuiltFromOptable :=
  ⟨stepWith optable, buildEngine_ok.mpr ⟨optable_wellFormed, rfl⟩, stepWith_optable⟩

end Sys2Proof.Machine
end

section
/-! Proofs about the step and the addressing modes (40_step_and_addressing.md): the effective addresses in the
spec's arithmetic, when a step raises or completes, and the transactions of a step. -/

namespace Sys2Proof.Machine

/-! #### Words in the spec's arithmetic -/

theorem zext_eq_ofNat (b : Byte) : zext b = BitVec.ofNat 16 b.toNat :=
  BitVec.eq_of_toNat_eq (by simp; omega)

theorem zext_add_eq_ofNat (b c : Byte) : zext (b + c) = BitVec.ofNat 16 ((b.toNat + c.toNat) % 256) := by
  rw [zext_eq_ofNat, BitVec.toNat_add]

theorem eq_ofNat_of_toNat_eq {w : Word} {n : Nat} (h : w.toNat = n) : w = BitVec.ofNat 16 n := by
  rw [← h, BitVec.ofNat_toNat, BitVec.setWidth_eq]

theorem inRange_eq (n : Nat) :
    inRange n = if n ≤ 0xFFFF then .ok (BitVec.ofNat 16 n) else .error .addressOutOfRange := by
  by_cases h : n ≤ 0xFFFF
  · rw [if_pos h, inRange_eq_ok h]
  · rw [if_neg h, inRange_eq_error (Nat.lt_of_not_le h)]

/-! #### The addressing modes (R78 to R87) -/

/-- Settles O23, by the equation of each mode; a sum of bytes is reduced modulo 256, one with a word checked. -/
theorem directModesFollowTheirFormulas : Obligations.DirectModesFollowTheirFormulas := by
  intro b v s
  refine ⟨?_, ?_, ?_, ?_, effectiveAddress_abs v s, ?_, ?_⟩
  · rw [resolve_imm, lowByte_zext]
  · rw [effectiveAddress_zpg, lowByte_zext, zext_eq_ofNat]
  · rw [effectiveAddress_zpgx, lowByte_zext, zext_add_eq_ofNat]
  · rw [effectiveAddress_zpgy, lowByte_zext, zext_add_eq_ofNat]
  · rw [effectiveAddress_absx, inRange_eq]
  · rw [effectiveAddress_absy, inRange_eq]

/-- Settles O24, by the value of a zero-page pointer (`zeroPagePointer_toNat`). -/
theorem pointerModesFollowTheirFormulas : Obligations.PointerModesFollowTheirFormulas := by
  refine fun b s => ⟨?_, ?_⟩
  · have hp := zeroPagePointer_toNat (b + s.x) s
    rw [BitVec.toNat_add] at hp
    rw [effectiveAddress_indx, lowByte_zext, eq_ofNat_of_toNat_eq hp]
  · rw [effectiveAddress_indy, lowByte_zext, inRange_eq, zeroPagePointer_toNat]

theorem indTarget_of_indHighAt {p : PageCross} {v hiAt : Word} (h : indHighAt p v = .ok hiAt) (s : State) :
    indTarget p v s = .ok (joinBytes (s.mem.read hiAt.toNat) (s.mem.read v.toNat)) := by
  simp only [indTarget, h, State.readByte]

theorem indTarget_of_indHighAt_error {p : PageCross} {v : Word} {k : Exc} (h : indHighAt p v = .error k)
    (s : State) : indTarget p v s = .error k := by
  simp only [indTarget, h]

theorem succ_toNat {v : Word} (h : v.toNat ≠ 0xFFFF) : (v + 1).toNat = v.toNat + 1 :=
  pc_add_toNat (len := 1) (by omega)

/-- At a page end the setting `carry` reads the high byte at the next address, if that exists. -/
theorem indHighAt_carry_pageEnd {v : Word} (h : v.toNat % 256 = 0xFF) :
    indHighAt .carry v = if v = 0xFFFF then .error .addressOutOfRange else .ok (v + 1) := by
  rw [indHighAt_pageEnd h, inRange_eq]
  by_cases hv : v = 0xFFFF
  · rw [if_pos hv, if_neg (by simp [hv])]
  · have hne : v.toNat ≠ 0xFFFF := fun e => hv (BitVec.eq_of_toNat_eq e)
    rw [if_neg hv, if_pos (by omega), eq_ofNat_of_toNat_eq (succ_toNat hne)]

/-- Settles O25, by where the high byte of the pointer is read. -/
theorem indirectJumpTarget : Obligations.IndirectJumpTarget := by
  refine fun p v s => ⟨fun h => ?_, fun h => ⟨?_, fun hv => ?_, fun hv => ?_⟩, effectiveAddress_ind v s⟩
  · rw [indTarget_of_indHighAt (indHighAt_inside h p), succ_toNat (by omega)]
  · rw [indTarget_of_indHighAt (indHighAt_pageEnd h .samePage)]
    simp
  · have hne : v ≠ 0xFFFF := fun e => hv (congrArg BitVec.toNat e)
    rw [indTarget_of_indHighAt ((indHighAt_carry_pageEnd h).trans (if_neg hne)), succ_toNat hv]
  · have heq : v = 0xFFFF := BitVec.eq_of_toNat_eq hv
    exact indTarget_of_indHighAt_error ((indHighAt_carry_pageEnd h).trans (if_pos heq)) s

/-- A zero-page pointer depends on page 0 alone. -/
theorem zeroPagePointer_congr {s u : State}
    (h : ∀ a : Word, a.toNat < 0x0100 → s.readByte a = u.readByte a) (p : Byte) :
    zeroPagePointer p s = zeroPagePointer p u := by
  have hzpg : ∀ q : Byte, s.readByte (zext q) = u.readByte (zext q) := fun q =>
    h _ (by rw [zext_toNat]; exact q.isLt)
  simp only [zeroPagePointer, hzpg]

/-- Settles O26: indx and indy read a zero-page pointer, and the other modes no memory. -/
theorem pointersComeFromPageZeroOnly : Obligations.PointersComeFromPageZeroOnly := by
  intro m v s u hm hx hy hmem
  cases m with
  | ind => exact absurd rfl hm
  | indx => rw [effectiveAddress_indx, effectiveAddress_indx, hx, zeroPagePointer_congr hmem]
  | indy => rw [effectiveAddress_indy, effectiveAddress_indy, hy, zeroPagePointer_congr hmem]
  | _ => simp only [effectiveAddress, hx, hy]

/-! #### When an instruction raises and when it completes (R72) -/

theorem raisedBy_eq_none_iff {i : Instr} {s : State} : raisedBy i s = none ↔ ¬ raiseCondition i s := by
  rw [← raisedBy_isSome_iff, Bool.not_eq_true, Option.isSome_eq_false_iff, Option.isNone_iff_eq_none]

/-- An answer for instruction `i` in state `s` as R72 asks: AddressOutOfRange is taken under the raise
conditions, otherwise the instruction completes with ST as it was. -/
def AnswersByR72 (i : Instr) (s : State) (answer : Result) : Prop :=
  (raiseCondition i s → answer = raise .addressOutOfRange s) ∧
    (¬ raiseCondition i s → ∃ t, answer = .next t ∧ t.st = s.st)

/-- The skeleton answers as R72 asks, when `raisedBy` says of the instruction what stops the skeleton and its
handler leaves ST. -/
theorem perform_answersByR72 {α : Type} {mn : Mnemonic} {len : Nat} {r : Except Exc α}
    {f : α → State → Handled} {i : Instr} {s : State}
    (hr : raisedBy i s = none ↔ (∃ x, r = .ok x) ∧ successorOk mn len s = true)
    (hk : ∀ k, r = .error k → k = .addressOutOfRange) (hf : ∀ x, (settlePc len (f x s)).st = s.st) :
    AnswersByR72 i s (perform mn len r f s) := by
  rw [raisedBy_eq_none_iff] at hr
  rcases perform_cases (rfl : perform mn len r f s = _) with ⟨k, h, ht⟩ | ⟨x, h, hs, ht⟩ | ⟨x, h, hs, ht⟩
  · refine ⟨fun _ => hk k h ▸ ht, fun hc => ?_⟩
    obtain ⟨⟨x, hx⟩, -⟩ := hr.mp hc
    cases h.symm.trans hx
  · exact ⟨fun hc => absurd hc (hr.mpr ⟨⟨x, h⟩, hs⟩), fun _ => ⟨_, ht, hf x⟩⟩
  · exact ⟨fun _ => ht, fun hc => by cases hs.symm.trans (hr.mp hc).2⟩

theorem exec_answersByR72 (i : Instr) (s : State) : AnswersByR72 i s (exec i s) := by
  rcases instr_family i with ⟨r, m, hr, hm⟩ | ⟨r, m, hr, hm⟩ | ⟨m, hc, hm⟩ | ⟨f, hf, hm⟩ |
    ⟨v, rfl⟩ | ⟨v, rfl⟩ | ⟨v, rfl⟩
  · rw [exec_load hr hm]
    exact perform_answersByR72 (raisedBy_eq_none_of_mode hm s) (fun _ => resolve_error)
      fun o => State.setReg_st ..
  · rw [exec_store hr hm]
    exact perform_answersByR72 (raisedBy_eq_none_of_memMode hm s) (fun _ => effectiveAddress_error)
      fun _ => rfl
  · rw [exec_compare hc hm]
    exact perform_answersByR72 (hc ▸ raisedBy_eq_none_of_mode hm s) (fun _ => resolve_error) fun _ => rfl
  · rw [exec_implied hf]
    refine perform_answersByR72 ?_ (fun _ h => nomatch h) fun _ => impliedHandler_st hf s
    simpa using raisedBy_eq_none_of_no_mode hm s
  · rw [exec_jmpAbs, jump]
    exact perform_answersByR72 (raisedBy_eq_none_of_memMode rfl s) (fun _ => effectiveAddress_error)
      fun _ => rfl
  · rw [exec_jmpInd, jump]
    exact perform_answersByR72 (raisedBy_eq_none_of_memMode rfl s) (fun _ => effectiveAddress_error)
      fun _ => rfl
  · rw [exec_jsrAbs]
    exact perform_answersByR72 (r := effectiveAddress .abs v s) (raisedBy_eq_none_of_memMode rfl s)
      (fun _ => effectiveAddress_error) fun _ => rfl

/-- Settles O36: each family runs its handler through the skeleton, which checks before it writes. -/
theorem instructionsCompleteUnlessTheyMustRaise : Obligations.InstructionsCompleteUnlessTheyMustRaise :=
  exec_answersByR72

/-! #### The step (R70 to R73) -/

/-- Settles O57, by one row of the dispatch per instruction. -/
theorem execIsTheHandlerOfItsMnemonic : Obligations.ExecIsTheHandlerOfItsMnemonic := exec_eq_execDecoded

theorem fetchDecode_of_decode {s : State} {i : Instr} {rest : List Byte}
    (h : decode (fetchBytes s) = .ok (i, rest)) : fetchDecode s = .ok i := by
  rw [fetchDecode, h]

/-- Settles O39: the step runs what the fetch decodes, and below the top of memory the fetch is complete. -/
theorem stepRunsTheDecodedInstruction : Obligations.StepRunsTheDecodedInstruction := by
  refine fun s hs => ⟨fun i rest h => step_of_fetchDecode hs (fetchDecode_of_decode h), fun hfit => ?_⟩
  have h1 : s.pc.toNat + 1 < addressCount := by simp only [addressCount]; omega
  have h2 : s.pc.toNat + 1 + 1 < addressCount := by simp only [addressCount]; omega
  simp only [fetchBytes_cons, bytesFrom, h1, h2, if_true, State.readByte]

theorem step_next {s : State} (hs : s.st = .running) : ∃ t, step s = .next t :=
  stepWith_optable s ▸ stepWith_next optable_wellFormed hs

/-- Settles O38: a running engine has a next state, a halted one answers its fault. -/
theorem onlyHaltedStatesStop : Obligations.OnlyHaltedStatesStop := by
  intro s
  rcases s.st.running_or_halted with hs | ⟨k, hs⟩
  · obtain ⟨t, ht⟩ := step_next hs
    simp [hs, ht]
  · simp [hs, step_halted hs, eq_comm]

theorem length_bytesFrom_eq (m : Memory) (a n : Nat) :
    (bytesFrom m a n).length = min n (addressCount - a) := by
  induction n generalizing a with
  | zero => simp [bytesFrom]
  | succ n ih =>
    unfold bytesFrom
    split
    · rw [List.length_cons, ih]
      omega
    · rw [List.length_nil]
      omega

/-- An instruction whose operand bytes do not all lie in memory is truncated (R72 condition 2). -/
theorem fetchDecode_truncated {s : State} {row : OpRow} (hrow : rowOf optable (s.readByte s.pc) = some row)
    (hout : 0xFFFF < s.pc.toNat + row.length - 1) : fetchDecode s = .error .truncated := by
  have hmem := (rowOf_some hrow).1
  have hshort : (bytesFrom s.mem (s.pc.toNat + 1) 2).length + 1 < row.length := by
    rw [length_bytesFrom_eq, addressCount]
    omega
  have hdec := (decode_eq_error_of_row hrow).mpr ((takeOperand_eq_error hmem).mpr ⟨rfl, hshort⟩)
  rw [fetchDecode, fetchBytes_cons, hdec]

/-- The instruction a row gives when its operand bytes lie in memory (R57). -/
theorem fetchDecode_of_row {s : State} {row : OpRow} (hrow : rowOf optable (s.readByte s.pc) = some row)
    (hfit : s.pc.toNat + row.length - 1 ≤ 0xFFFF) :
    ∃ i, fetchDecode s = .ok i ∧ i.mnemonic = row.mnemonic ∧ i.mode = row.mode ∧
      (row.length = 2 → i.operand.toNat = (s.mem.read (s.pc.toNat + 1)).toNat) ∧
      (row.length = 3 → i.operand.toNat =
        256 * (s.mem.read (s.pc.toNat + 2)).toNat + (s.mem.read (s.pc.toNat + 1)).toNat) := by
  have hmem := (rowOf_some hrow).1
  obtain ⟨v, rest, htake, -, h2, h3⟩ :=
    takeOperand_bytesFrom (length_of_mem optable_wellFormed hmem) s.mem hfit
  have hdec : decodeWith optable (fetchBytes s) = .ok (⟨row.mnemonic, row.mode, v⟩, rest) := by
    simp only [fetchBytes_cons, decodeWith, hrow, htake]
  obtain ⟨i, hi⟩ := optable_representable hmem v
  obtain ⟨hmn, hmode⟩ := instrOf_some hi
  have hop : i.operand = v :=
    congrArg Decoded.operand (instrOf_decoded (decodeWith_operandFits optable_wellFormed hdec) hi)
  exact ⟨i, fetchDecode_of_decode (decode_ok.mpr ⟨_, hdec, hi⟩), hmn, hmode, hop ▸ h2, hop ▸ h3⟩

/-- Settles O37: conditions 1 and 2 are the two ways the decode fails; conditions 3 to 6 are those under which
the decoded instruction raises (`exec_answersByR72`). -/
theorem stepRaisesExactlyTheSixConditions : Obligations.StepRaisesExactlyTheSixConditions := by
  refine fun s hs => ⟨fun h => ?_, fun row hrow => ⟨fun hout => ?_, fun hfit => ?_⟩⟩
  · rw [step_running hs, fetchDecode_of_rowOf_none h]
    rfl
  · rw [step_running hs, fetchDecode_truncated hrow hout]
    rfl
  · obtain ⟨i, hi, hmn, hmode, h2, h3⟩ := fetchDecode_of_row hrow hfit
    have hanswer := exec_answersByR72 i s
    rw [← step_of_fetchDecode hs hi, AnswersByR72, hs] at hanswer
    exact ⟨i, hi, hmn, hmode, h2, h3, hanswer⟩

/-! #### The transactions of a step (R91) -/

/-- The resolver reads pointer bytes in the modes indx, indy and ind alone. -/
theorem pointerAccess_eq_nil {mode : Option Mode}
    (h : mode ∉ [some (.mem .indx), some (.mem .indy), some (.mem .ind)]) (v : Word) (s : State) :
    pointerAccess mode v s = [] := by
  unfold pointerAccess
  split <;> simp_all

theorem pointerAccess_indx (v : Word) (s : State) :
    pointerAccess (some (.mem .indx)) v s =
      [.read (BitVec.ofNat 16 ((v.toNat + s.x.toNat) % 256)),
       .read (BitVec.ofNat 16 ((v.toNat + s.x.toNat + 1) % 256))] := by
  have h : (1 : Byte).toNat = 1 := rfl
  simp only [pointerAccess, zext_eq_ofNat, BitVec.toNat_add, lowByte_toNat, h, Nat.mod_add_mod]

theorem pointerAccess_indy {v : Word} (h : v.toNat < 256) (s : State) :
    pointerAccess (some (.mem .indy)) v s = [.read v, .read (BitVec.ofNat 16 ((v.toNat + 1) % 256))] := by
  have hv : zext (lowByte v) = v := BitVec.eq_of_toNat_eq (by simp [Nat.mod_eq_of_lt h])
  have h1 : zext (lowByte v + 1) = BitVec.ofNat 16 ((v.toNat + 1) % 256) := by
    rw [zext_add_eq_ofNat, lowByte_toNat, Nat.mod_eq_of_lt h]
    rfl
  rw [pointerAccess, hv, h1]

theorem pointerAccess_ind {v hiAt : Word} (h : indHighAt pageCross v = .ok hiAt) (s : State) :
    pointerAccess (some (.mem .ind)) v s = [.read v, .read hiAt] := by
  simp only [pointerAccess, h]

theorem pointerAccess_ind_samePage {v : Word} (hp : pageCross = .samePage) (h : v.toNat % 256 = 0xFF)
    (s : State) : pointerAccess (some (.mem .ind)) v s = [.read v, .read (v - 0xFF)] := by
  have hfirst : joinBytes (highByte v) 0 = v - 0xFF := by
    apply BitVec.eq_of_toNat_eq
    simp only [joinBytes_toNat, highByte_toNat, BitVec.toNat_sub, BitVec.ofNat_eq_ofNat, BitVec.toNat_ofNat]
    omega
  exact pointerAccess_ind (hfirst ▸ hp ▸ indHighAt_pageEnd h .samePage) s

theorem pointerAccess_ind_carry {v : Word} (hp : pageCross = .carry) (h : v.toNat % 256 = 0xFF) (s : State) :
    pointerAccess (some (.mem .ind)) v s = if v = 0xFFFF then [.read v] else [.read v, .read (v + 1)] := by
  have hhi := indHighAt_carry_pageEnd h
  by_cases hv : v = 0xFFFF
  · rw [if_pos hv] at hhi ⊢
    simp only [pointerAccess, hp, hhi]
  · rw [if_neg hv] at hhi ⊢
    exact pointerAccess_ind (hp ▸ hhi) s

/-- An instruction reads no data when its operand is immediate, or when it is none of those that read. -/
theorem dataAccess_eq_nil {i : Instr}
    (h : i.mnemonic ∉ [Mnemonic.lda, .ldx, .ldy, .cmp, .pla, .rts] ∨
      i.mnemonic ∈ [Mnemonic.lda, .ldx, .ldy, .cmp] ∧ i.mode = some .imm) (s : State) :
    dataAccess i s = [] := by
  unfold dataAccess
  split <;> simp_all [addressOf]

theorem writeAccess_of_address {i : Instr} {r : Reg} {m : MemMode} {ea : Word} {s : State}
    (hr : storedReg i.mnemonic = some r) (hm : i.mode = some (.mem m))
    (hea : effectiveAddress m i.operand s = .ok ea) : writeAccess i s = [.write ea (s.getReg r)] := by
  simp only [writeAccess_of_storedReg hr, storeAccess, addressOf_of_mode hm hea]

/-- The data stages of an instruction that raises are empty; otherwise they are its reads, then its writes. -/
theorem dataStages_split (i : Instr) (s : State) :
    ∃ reads writes, dataStages i s = reads ++ writes ∧
      (raiseCondition i s → reads = [] ∧ writes = []) ∧
      (¬ raiseCondition i s → reads = dataAccess i s ∧ writes = writeAccess i s) := by
  by_cases hc : raiseCondition i s
  · exact ⟨[], [], if_neg fun hn => raisedBy_eq_none_iff.mp hn hc, fun _ => ⟨rfl, rfl⟩, absurd hc⟩
  · exact ⟨_, _, if_pos (raisedBy_eq_none_iff.mpr hc), fun h => absurd h hc, fun _ => ⟨rfl, rfl⟩⟩

/-- Settles O59, stage by stage; the reads and writes are those of `dataStages_split`. -/
theorem transactionsOfEveryInstruction : Obligations.TransactionsOfEveryInstruction := by
  intro s i hs hi
  obtain ⟨reads, writes, hstages, hraise, hdone⟩ := dataStages_split i s
  refine ⟨operandAccess (instrLength i) s, pointerAccess i.mode i.operand s, reads, writes, ?_,
    fun hl => ?_, fun hl => ?_, fun hl => ?_, fun hm => pointerAccess_eq_nil hm _ s, fun hm => ?_, fun hm => ?_,
    fun hm => ⟨fun h => ?_, fun h => ?_⟩, hraise, fun hc => ?_⟩
  · rw [transactions_of_fetchDecode hs hi, hstages]
    simp [opcodeAccess]
  · rw [hl]
    rfl
  · rw [hl]
    rfl
  · rw [hl]
    rfl
  · rw [hm, pointerAccess_indx]
  · rw [hm, pointerAccess_indy (operand_lt hm rfl)]
  · rw [hm, pointerAccess_ind (indHighAt_inside h pageCross)]
  · rw [hm]
    cases hp : pageCross with
    | carry => exact pointerAccess_ind_carry hp h s
    | samePage => exact pointerAccess_ind_samePage hp h s
  · obtain ⟨rfl, rfl⟩ := hdone hc
    refine ⟨fun hmn => ⟨fun hm => dataAccess_eq_nil (.inr ⟨hmn, hm⟩) s, fun m ea hm hea => ?_⟩, fun hmn => ?_,
      fun hmn => ?_, fun hmn => dataAccess_eq_nil (.inl hmn) s, fun r m ea hmn hm hea => ?_, fun hmn => ?_,
      fun hmn => ?_, fun hmn => writeAccess_eq_nil hmn s⟩
    · exact dataAccess_of_reader hmn (addressOf_of_mode hm hea)
    · rw [dataAccess, hmn]
    · rw [dataAccess, hmn]
    · exact writeAccess_of_address (storedReg_of_mem hmn) hm hea
    · rw [writeAccess, hmn]
    · rw [writeAccess, hmn]

/-- The data stages of an instruction that has its effective address and its successor. -/
theorem dataStages_of_address {i : Instr} {m : MemMode} {ea : Word} {s : State} (hm : i.mode = some (.mem m))
    (hea : effectiveAddress m i.operand s = .ok ea) (hs : hasSuccessor (instrLength i) s) :
    dataStages i s = dataAccess i s ++ writeAccess i s := by
  refine if_pos ((raisedBy_eq_none_of_memMode hm s).mpr ⟨⟨ea, hea⟩, ?_⟩)
  rw [instrLength, hm] at hs
  exact (successorOk_iff ..).mpr (.inr (.inr hs))

/-- Settles O46: under its hypotheses each of the four makes its data stages, and every stage is a list of at
most two accesses. -/
theorem transactionOrder : Obligations.TransactionOrder := by
  refine fun s v b hs => ⟨fun hi hsucc => ?_, fun hi => ?_, fun hi hsucc => ?_, fun ea hi hea hsucc => ?_⟩ <;>
    rw [transactions_of_fetchDecode hs hi]
  · rw [dataStages_of_address (i := .jsrAbs v) rfl rfl hsucc]
    rfl
  · rfl
  · have hea := effectiveAddress_indx (zext b) s
    rw [dataStages_of_address (i := .ldaIndx b) rfl hea hsucc,
      dataAccess_of_reader (by simp [Instr.mnemonic]) (addressOf_of_mode rfl hea)]
    simp only [Instr.mode, Instr.operand, pointerAccess, lowByte_zext]
    rfl
  · rw [dataStages_of_address (i := .staIndy b) rfl hea hsucc, writeAccess_of_address rfl rfl hea]
    simp only [Instr.mode, Instr.operand, pointerAccess, lowByte_zext]
    rfl

end Sys2Proof.Machine
end

section
/-! Proofs about NOP, the transfers and the index increments and decrements (41_nop_transfer_incdec.md): what an
instruction without a mode answers, and the index arithmetic modulo 256. -/

namespace Sys2Proof.Machine

/-! #### The instructions without a mode (R72, R74, R90) -/

section Implied

variable {i : Instr} {f : State → Handled} (hf : impliedHandler i.mnemonic = some f)
  (hneeds : needsSuccessor i.mnemonic = true)
include hf hneeds

/-- An instruction without a mode runs its handler where its successor exists, and raises where it does not. -/
theorem exec_implied_meaning (s : State) :
    (hasSuccessor 1 s → exec i s = .next (settlePc 1 (f s))) ∧
    (¬ hasSuccessor 1 s → exec i s = raise .addressOutOfRange s) := by
  obtain ⟨hdone, hraise, -⟩ := perform_meaning hneeds 1 (.ok ()) (fun _ => f) s
  rw [exec_implied hf]
  exact ⟨hdone () rfl, hraise () rfl⟩

/-- After a one-byte instruction with two successors the next address has a successor again. -/
theorem hasSuccessor_after_implied {s : State} (hs : hasSuccessor 2 s) :
    hasSuccessor 1 (settlePc 1 (f s)) := by
  have hrts : i.mnemonic ≠ .rts := fun h => by rw [h] at hneeds; cases hneeds
  unfold hasSuccessor at hs ⊢
  rw [impliedHandler_pc hf s hrts]
  bv_omega

/-- Two instructions without a mode, one after the other, where both successors exist. -/
theorem exec_implied_pair {j : Instr} {g : State → Handled} (hg : impliedHandler j.mnemonic = some g)
    (hneeds' : needsSuccessor j.mnemonic = true) {s : State} (hs : hasSuccessor 2 s) :
    ∃ t, exec i s = .next t ∧ exec j t = .next (settlePc 1 (g (settlePc 1 (f s)))) :=
  ⟨settlePc 1 (f s),
    (exec_implied_meaning hf hneeds s).1 (by unfold hasSuccessor at hs ⊢; omega),
    (exec_implied_meaning hg hneeds' _).1 (hasSuccessor_after_implied hf hneeds hs)⟩

end Implied

/-! #### NOP and the transfers (R100 to R104) -/

/-- Settles O7: the handler of NOP leaves the state to the step. -/
theorem nopOnlyAdvancesPc : Obligations.NopOnlyAdvancesPc :=
  ⟨rfl, exec_implied_meaning (i := .nop) (f := advance) rfl rfl⟩

/-- Settles O8: each handler is one write of a register. -/
theorem transfersCopyOneRegister : Obligations.TransfersCopyOneRegister := by
  refine ⟨rfl, rfl, rfl, rfl, fun s => ?_⟩
  obtain ⟨htax, htax'⟩ := exec_implied_meaning (i := .tax) rfl rfl s
  obtain ⟨htxa, htxa'⟩ := exec_implied_meaning (i := .txa) rfl rfl s
  obtain ⟨htay, htay'⟩ := exec_implied_meaning (i := .tay) rfl rfl s
  obtain ⟨htya, htya'⟩ := exec_implied_meaning (i := .tya) rfl rfl s
  exact ⟨fun h => ⟨htax h, htxa h, htay h, htya h⟩, fun h => ⟨htax' h, htxa' h, htay' h, htya' h⟩⟩

/-! #### The index increments and decrements (R105 to R110) -/

theorem add_one_eq_ofNat (b : Byte) : b + 1 = BitVec.ofNat 8 ((b.toNat + 1) % 256) :=
  BitVec.eq_of_toNat_eq (by simp)

theorem sub_one_eq_ofNat (b : Byte) :
    b - 1 = BitVec.ofNat 8 (if b.toNat = 0 then 0xFF else b.toNat - 1) := by
  split
  · next hzero => rw [BitVec.eq_of_toNat_eq (y := 0) hzero]; rfl
  · next hpos => bv_omega

/-- Settles O9: the handlers add and subtract one on bytes, which is the arithmetic modulo 256. -/
theorem incrementsAndDecrementsWrap : Obligations.IncrementsAndDecrementsWrap := by
  refine ⟨rfl, rfl, rfl, rfl, fun s => ?_⟩
  simp only [← add_one_eq_ofNat, ← sub_one_eq_ofNat]
  obtain ⟨hinx, hinx'⟩ := exec_implied_meaning (i := .inx) rfl rfl s
  obtain ⟨hdex, hdex'⟩ := exec_implied_meaning (i := .dex) rfl rfl s
  obtain ⟨hiny, hiny'⟩ := exec_implied_meaning (i := .iny) rfl rfl s
  obtain ⟨hdey, hdey'⟩ := exec_implied_meaning (i := .dey) rfl rfl s
  exact ⟨fun h => ⟨hinx h, hdex h, hiny h, hdey h⟩, fun h => ⟨hinx' h, hdex' h, hiny' h, hdey' h⟩⟩

/-- Settles O10: on bytes, subtracting one undoes adding one. -/
theorem incrementThenDecrementRestores : Obligations.IncrementThenDecrementRestores := by
  intro s hs
  obtain ⟨t, hinx, hdex⟩ := exec_implied_pair (i := .inx) (j := .dex) rfl rfl rfl rfl hs
  obtain ⟨u, hiny, hdey⟩ := exec_implied_pair (i := .iny) (j := .dey) rfl rfl rfl rfl hs
  refine ⟨⟨t, hinx, hdex.trans ?_⟩, ⟨u, hiny, hdey.trans ?_⟩⟩ <;>
    simp only [settlePc_advance, State.setReg, BitVec.add_sub_cancel, BitVec.add_assoc] <;>
    rfl

end Sys2Proof.Machine
end

section
/-! Proofs about the stack (42_stack.md): Push and Pull in the spec's arithmetic, the ring in page 1, and PHA,
PLA and the pushes of JSR with what they leave unchanged. -/

namespace Sys2Proof.Machine

/-! #### Push and Pull (R120, R121) -/

theorem push_eq (b : Byte) (s : State) :
    push b s = { s with sp := s.sp - 1, mem := s.mem.write (0x0100 + s.sp.toNat) b } := by
  rw [← stackAddr_toNat]
  rfl

theorem pull_eq (s : State) :
    pull s = (s.mem.read (0x0100 + (s.sp + 1).toNat), { s with sp := s.sp + 1 }) := by
  rw [← stackAddr_toNat]
  rfl

theorem sub_one_eq_ofNat_mod (b : Byte) : b - 1 = BitVec.ofNat 8 ((b.toNat + 255) % 256) := by
  bv_omega

/-- Settles O11: on bytes, adding and subtracting one is the arithmetic modulo 256. -/
theorem pushAndPullUseTheStackPage : Obligations.PushAndPullUseTheStackPage := by
  refine fun b s => ⟨?_, ?_, stackAddr_toNat s.sp⟩
  · rw [push_eq, sub_one_eq_ofNat_mod]
  · rw [pull_eq, ← add_one_eq_ofNat, BitVec.toNat_add]
    rfl

/-- A Pull from a state with the SP and the memory that a Push left answers the byte pushed and restores SP,
whatever else has changed in between. -/
theorem pull_after_push {b : Byte} {s u : State} (hsp : u.sp = (push b s).sp)
    (hmem : u.mem = (push b s).mem) : pull u = (b, { u with sp := s.sp }) := by
  have hback : u.sp + 1 = s.sp := by rw [hsp, push_sp, BitVec.sub_add_cancel]
  rw [pull_eq, hback, hmem, push_eq, Memory.read_write_same]

/-! #### The ring in page 1 (R124) -/

/-- The stack addresses are the page 0x0100 to 0x01FF. -/
theorem ne_stackAddr_of_outside {a : Word} (h : a.toNat < 0x0100 ∨ 0x01FF < a.toNat) (sp : Byte) :
    a ≠ stackAddr sp := by
  rintro rfl
  rw [stackAddr_toNat] at h
  have := sp.isLt
  omega

/-- The bytes of a list pushed one after the other. -/
def pushAll (bs : List Byte) (s : State) : State := bs.foldl (fun u b => push b u) s

@[simp] theorem pushAll_nil (s : State) : pushAll [] s = s := rfl
@[simp] theorem pushAll_cons (b : Byte) (bs : List Byte) (s : State) :
    pushAll (b :: bs) s = pushAll bs (push b s) := rfl

theorem pushAll_sp (bs : List Byte) (s : State) :
    (pushAll bs s).sp = s.sp - BitVec.ofNat 8 bs.length := by
  induction bs generalizing s with
  | nil => simp
  | cons b bs ih =>
    rw [pushAll_cons, ih, push_sp, List.length_cons]
    bv_omega

theorem pushAll_readByte_outside (bs : List Byte) (s : State) {a : Word}
    (h : a.toNat < 0x0100 ∨ 0x01FF < a.toNat) : (pushAll bs s).readByte a = s.readByte a := by
  induction bs generalizing s with
  | nil => rfl
  | cons b bs ih => rw [pushAll_cons, ih, push_readByte_other b s (ne_stackAddr_of_outside h s.sp)]

theorem pushAll_frame (bs : List Byte) (s : State) :
    pushAll bs s = { s with sp := (pushAll bs s).sp, mem := (pushAll bs s).mem } := by
  induction bs generalizing s with
  | nil => rfl
  | cons b bs ih => exact ih (push b s)

/-- Settles O12, by induction on the bytes pushed. -/
theorem stackIsRingInPageOne : Obligations.StackIsRingInPageOne :=
  fun bs s => ⟨pushAll_sp bs s, fun _ h => pushAll_readByte_outside bs s h, pushAll_frame bs s⟩

/-! #### PHA and PLA (R122, R123) -/

/-- Settles O13: the handlers are Push of A and Pull into A. -/
theorem phaAndPlaMoveTheAccumulator : Obligations.PhaAndPlaMoveTheAccumulator := by
  refine ⟨rfl, rfl, fun s => ?_⟩
  obtain ⟨hpha, hpha'⟩ := exec_implied_meaning (i := .pha) rfl rfl s
  obtain ⟨hpla, hpla'⟩ := exec_implied_meaning (i := .pla) rfl rfl s
  rw [push_eq] at hpha
  rw [pull_eq] at hpla
  exact ⟨fun h => ⟨hpha h, hpla h⟩, fun h => ⟨hpha' h, hpla' h⟩⟩

/-- PLA, in a state with the SP and the memory that a Push left, loads the byte pushed and restores SP. -/
theorem exec_pla_after_push {b : Byte} {s u : State} (hsp : u.sp = (push b s).sp)
    (hmem : u.mem = (push b s).mem) (hu : hasSuccessor 1 u) :
    exec .pla u = .next { u with a := b, sp := s.sp, pc := u.pc + 1 } := by
  have hpla := (exec_implied_meaning (i := .pla) rfl rfl u).1 hu
  rwa [pull_after_push hsp hmem] at hpla

/-- Settles O14: what PLA pulls is what PHA pushed, and A in between is overwritten. -/
theorem phaThenPlaRestoresAccumulator : Obligations.PhaThenPlaRestoresAccumulator := by
  intro s between hs
  have hfirst : hasSuccessor 1 s := by unfold hasSuccessor at hs ⊢; omega
  have hpha := (exec_implied_meaning (i := .pha) rfl rfl s).1 hfirst
  have hpla := exec_pla_after_push (b := s.a) (s := s)
    (u := { settlePc 1 (advance (push s.a s)) with a := between }) rfl rfl
    (hasSuccessor_after_implied (i := .pha) rfl rfl hs)
  have hpc : s.pc + 1 + 1 = s.pc + 2 := BitVec.add_assoc s.pc 1 1
  rw [← hpc]
  exact ⟨_, hpha, hpla⟩

/-! #### What the pushes leave unchanged (R122, R132, R35) -/

/-- An instruction whose mode resolves and that leaves the engine running ran its handler. -/
theorem eq_settlePc_of_running {α : Type} {mn : Mnemonic} {len : Nat} {x : α} {f : α → State → Handled}
    {s t : State} (h : perform mn len (.ok x) f s = .next t) (ht : t.st = .running) :
    t = settlePc len (f x s) :=
  Host.Outcome.next.inj (h.symm.trans (perform_completes rfl (perform_successorOk h ht)))

theorem stackAddr_ne_stackAddr_sub_one (sp : Byte) : stackAddr sp ≠ stackAddr (sp - 1) := fun h => by
  have := stackAddr_injective h
  bv_omega

/-- A second Push leaves the byte of the first in its place, also where SP wraps between them. -/
theorem push_push_readByte_first (b c : Byte) (s : State) :
    (push c (push b s)).readByte (stackAddr s.sp) = b :=
  (push_readByte_other c (push b s) (stackAddr_ne_stackAddr_sub_one s.sp)).trans (push_readByte_slot b s)

theorem push_push_readByte_other (b c : Byte) (s : State) {a : Word} (h : a ≠ stackAddr s.sp)
    (h' : a ≠ stackAddr (s.sp - 1)) : (push c (push b s)).readByte a = s.readByte a :=
  (push_readByte_other c (push b s) h').trans (push_readByte_other b s h)

theorem push_push_sp (b c : Byte) (s : State) : (push c (push b s)).sp = s.sp - 2 :=
  BitVec.sub_sub s.sp 1 1

/-- Settles O31: PHA is one Push and JSR two, the second below the first. -/
theorem pushesChangeOnlyStackBytes : Obligations.PushesChangeOnlyStackBytes := by
  refine fun v s t _ ht => ⟨fun h => ?_, fun h => ?_⟩
  · rw [exec_implied (i := .pha) rfl] at h
    obtain rfl := eq_settlePc_of_running h ht
    exact ⟨push_readByte_slot s.a s, fun a ha => push_readByte_other s.a s ha, rfl⟩
  · rw [exec_jsrAbs] at h
    obtain rfl := eq_settlePc_of_running h ht
    rw [settlePc_jumpTo, ← push_push_sp (highByte (s.pc + 3)) (lowByte (s.pc + 3)) s]
    generalize highByte (s.pc + 3) = high, lowByte (s.pc + 3) = low
    exact ⟨push_push_readByte_first high low s, push_readByte_slot low (push high s),
      fun a ha ha' => push_push_readByte_other high low s ha ha', rfl⟩

end Sys2Proof.Machine
end

section
/-! Proofs about JMP, JSR and RTS (43_control_flow.md): what each one answers, and the way back from a
subroutine. -/

namespace Sys2Proof.Machine

/-! #### JMP (R130, R87) -/

theorem exec_jmpInd_of_target {v target : Word} {s : State} (h : indTarget pageCross v s = .ok target) :
    exec (.jmpInd v) s = .next { s with pc := target } := by
  rw [exec_jmpInd, jump_eq, effectiveAddress_ind, h]

theorem exec_jmpInd_of_error {v : Word} {k : Exc} {s : State} (h : indTarget pageCross v s = .error k) :
    exec (.jmpInd v) s = raise k s := by
  rw [exec_jmpInd, jump_eq, effectiveAddress_ind, h]

/-- Settles O15, by the target of mode ind under each setting at a page end (`indirectJumpTarget`). -/
theorem jmpSetsPcAlone : Obligations.JmpSetsPcAlone := by
  intro v s
  obtain ⟨hinside, hpageEnd, -⟩ := indirectJumpTarget pageCross v s
  refine ⟨rfl, rfl, jump_eq .abs v s, fun h => exec_jmpInd_of_target (hinside h), fun h => ?_⟩
  obtain ⟨hsamePage, hcarry, hnowhere⟩ := hpageEnd h
  cases hp : pageCross with
  | samePage =>
    have hpage : v.toNat - 0xFF = 256 * (v.toNat / 256) := by omega
    rw [hpage]
    exact exec_jmpInd_of_target (hp ▸ hsamePage)
  | carry =>
    by_cases htop : v.toNat = 0xFFFF
    · exact (exec_jmpInd_of_error (hp ▸ hnowhere htop)).trans (if_pos htop).symm
    · exact (exec_jmpInd_of_target (hp ▸ hcarry htop)).trans (if_neg htop).symm

/-! #### JSR (R132) -/

/-- JSR pushes the two halves of the return address where that address exists, and raises where it does
not. -/
theorem exec_jsrAbs_meaning (v : Word) (s : State) :
    (hasSuccessor 3 s → exec (.jsrAbs v) s =
      .next { push (lowByte (s.pc + 3)) (push (highByte (s.pc + 3)) s) with pc := v }) ∧
    (¬ hasSuccessor 3 s → exec (.jsrAbs v) s = raise .addressOutOfRange s) := by
  rw [exec_jsrAbs]
  obtain ⟨hdone, hraise, -⟩ := perform_meaning (mn := .jsr) rfl 3 (.ok v)
    (fun t s => jumpTo t (push (lowByte (s.pc + 3)) (push (highByte (s.pc + 3)) s))) s
  exact ⟨hdone v rfl, hraise v rfl⟩

theorem push_push_eq (b c : Byte) (s : State) :
    push c (push b s) = { s with
      sp := s.sp - 2
      mem := (s.mem.write (0x0100 + s.sp.toNat) b).write (0x0100 + (s.sp - 1).toNat) c } := by
  rw [← push_push_sp b c s, push_eq c, push_eq b]

/-- Settles O16: the two pushes of JSR, in the spec's arithmetic. -/
theorem jsrPushesReturnAddress : Obligations.JsrPushesReturnAddress := by
  intro v s
  obtain ⟨hdone, hraise⟩ := exec_jsrAbs_meaning v s
  rw [push_push_eq] at hdone
  exact ⟨rfl, hdone, hraise⟩

/-! #### RTS (R133) and the way back (R136) -/

/-- RTS completes from every state: it has no successor check. -/
theorem exec_rts (s : State) :
    exec .rts s = .next { s with
      sp := s.sp + 2
      pc := joinBytes (s.readByte (stackAddr (s.sp + 2))) (s.readByte (stackAddr (s.sp + 1))) } := by
  have hsp : s.sp + 1 + 1 = s.sp + 2 := BitVec.add_assoc s.sp 1 1
  rw [exec_implied (i := .rts) rfl, performImplied, ← hsp]
  exact perform_completes rfl ((successorOk_iff ..).mpr (.inr (.inl rfl)))

/-- Settles O17, with the two stack addresses in the spec's arithmetic. -/
theorem rtsPullsReturnAddress : Obligations.RtsPullsReturnAddress := by
  refine ⟨rfl, fun s => ?_⟩
  rw [exec_rts, State.readByte, State.readByte, stackAddr_toNat, stackAddr_toNat]

/-- RTS returns to the word whose halves stand in the stack slots of `p` and `p - 1` when SP is `p - 2`. -/
theorem exec_rts_returns {u : State} {p : Byte} {ret : Word} (hsp : u.sp = p - 2)
    (hhigh : u.readByte (stackAddr p) = highByte ret)
    (hlow : u.readByte (stackAddr (p - 1)) = lowByte ret) :
    exec .rts u = .next { u with pc := ret, sp := p } := by
  have hsp₁ : u.sp + 1 = p - 1 := by rw [hsp]; bv_omega
  have hsp₂ : u.sp + 2 = p := by rw [hsp]; bv_omega
  rw [exec_rts, hsp₁, hsp₂, hhigh, hlow, joinBytes_halves]

/-- Settles O18: the slots JSR wrote hold the halves of the return address, and RTS joins them again. -/
theorem jsrThenRtsReturns : Obligations.JsrThenRtsReturns := by
  intro s v hpc
  have hs : hasSuccessor 3 s := Nat.add_le_add_right hpc 3
  have hjsr := (exec_jsrAbs_meaning v s).1 hs
  generalize hhi : highByte (s.pc + 3) = hi, hlo : lowByte (s.pc + 3) = lo at hjsr
  refine ⟨_, hjsr, push_push_sp hi lo s, rfl, fun u hsp hhigh hlow => exec_rts_returns hsp ?_ ?_⟩
  · exact hhigh.trans ((push_push_readByte_first hi lo s).trans hhi.symm)
  · exact hlow.trans ((push_readByte_slot lo (push hi s)).trans hlo.symm)

end Sys2Proof.Machine
end

section
/-! Proofs about CMP and the flags (44_compare.md): what a CMP answers, who writes a flag, and that no instruction
reads one. -/

namespace Sys2Proof.Machine

/-! #### CMP (R150) -/

/-- An encoding in format F2 ends with the operand byte, which the operand holds widened with zeros
(R51, R52). -/
theorem encode_of_byte_operand {i : Instr} {op b : Byte} (h : encode i = some [op, lowByte (zext b)]) :
    encode i = some [op, b] := by
  rwa [lowByte_zext] at h

theorem exists_mode_of_cmp {i : Instr} (hc : i.mnemonic = .cmp) : ∃ m, i.mode = some m := by
  cases i <;> cases hc <;> exact ⟨_, rfl⟩

theorem mem_admissibleModes_of_cmp {i : Instr} {m : Mode} (hc : i.mnemonic = .cmp) (hm : i.mode = some m) :
    some m ∈ admissibleModes .cmp := by
  obtain ⟨-, hadm, -⟩ := Laws.Rebuild.all i
  rw [hc, hm] at hadm
  exact admissible_iff.mp hadm

/-- Settles O19, by the meaning of CMP in every admissible mode (`everyAdmissiblePairHasItsMeaning`). -/
theorem cmpSetsCarryZeroNegative : Obligations.CmpSetsCarryZeroNegative := by
  refine ⟨fun b v => ⟨encode_of_byte_operand rfl, encode_of_byte_operand rfl, encode_of_byte_operand rfl,
    encode_of_byte_operand rfl, encode_of_byte_operand rfl, rfl, rfl, rfl⟩, fun i m s hc hm => ?_⟩
  obtain ⟨-, -, hmeaning⟩ := everyAdmissiblePairHasItsMeaning
  rw [exec_compare hc hm, ← execDecoded_compare, instrLength, hm]
  exact hmeaning m i.operand s (mem_admissibleModes_of_cmp hc hm)

/-! #### The writer of the flags (R152) -/

/-- The frame of the flags: an instruction that is no CMP leaves them. -/
theorem exec_flags_of_ne_cmp {i : Instr} {s t : State} (h : exec i s = .next t) (hi : i.mnemonic ≠ .cmp) :
    t.flags = s.flags := by
  cases exec_effect h with
  | loaded hr => exact State.setReg_flags ..
  | compared hc => exact absurd hc hi
  | implied hf => exact impliedHandler_flags hf s
  | _ => rfl

/-- V, B, D and I are written by no instruction: a comparison leaves them. -/
theorem exec_unwritten_flags {i : Instr} {s t : State} (h : exec i s = .next t) :
    t.flags.v = s.flags.v ∧ t.flags.b = s.flags.b ∧ t.flags.d = s.flags.d ∧ t.flags.i = s.flags.i := by
  rcases exec_flags h with hf | ⟨value, hf⟩ <;> rw [hf] <;> exact ⟨rfl, rfl, rfl, rfl⟩

/-! #### No instruction reads a flag (R16, R152) -/

section OtherFlags

variable (s : State) (f : Flags)

@[simp] theorem effectiveAddress_with_flags (m : MemMode) (v : Word) :
    effectiveAddress m v { s with flags := f } = effectiveAddress m v s := by
  cases m <;> rfl

@[simp] theorem resolve_with_flags (m : Mode) (v : Word) :
    resolve m v { s with flags := f } = resolve m v s := by
  cases m with
  | imm => rfl
  | mem m => simp only [resolve, effectiveAddress_with_flags]

@[simp] theorem operandValue_with_flags (o : Resolved) :
    operandValue o { s with flags := f } = operandValue o s := by
  cases o <;> rfl

@[simp] theorem State.setReg_with_flags (r : Reg) (v : Byte) :
    ({ s with flags := f } : State).setReg r v = { s.setReg r v with flags := f } := by
  cases r <;> rfl

@[simp] theorem State.getReg_with_flags (r : Reg) :
    ({ s with flags := f } : State).getReg r = s.getReg r := by
  cases r <;> rfl

theorem impliedHandler_with_flags {mn : Mnemonic} {g : State → Handled}
    (hg : impliedHandler mn = some g) :
    settlePc 1 (g { s with flags := f }) = { settlePc 1 (g s) with flags := f } := by
  cases mn <;> cases hg <;> rfl

theorem raiseCondition_with_flags (i : Instr) :
    raiseCondition i { s with flags := f } ↔ raiseCondition i s := Iff.rfl

end OtherFlags

/-- The skeleton with other flags: when neither resolving nor the handler looks at a flag or writes one, the
answer is the same with those flags. -/
theorem perform_with_flags {α : Type} {mn : Mnemonic} {len : Nat} {r r' : Except Exc α}
    {g : α → State → Handled} {s t : State} {f : Flags} (hr : r' = r)
    (hg : ∀ x, settlePc len (g x { s with flags := f }) = { settlePc len (g x s) with flags := f })
    (h : perform mn len r g s = .next t) :
    perform mn len r' g { s with flags := f } = .next { t with flags := f } := by
  subst hr
  rcases perform_cases h with ⟨k, hk, ht⟩ | ⟨x, hx, hs, ht⟩ | ⟨x, hx, hs, ht⟩ <;> cases ht
  · exact perform_resolve_raises hk
  · exact (perform_completes (s := { s with flags := f }) hx hs).trans (congrArg _ (hg x))
  · exact perform_successor_raises hx hs

/-- An instruction that is no CMP carries any other flags through. -/
theorem exec_with_flags_of_ne_cmp {i : Instr} {s t : State} (hi : i.mnemonic ≠ .cmp)
    (h : exec i s = .next t) (f : Flags) :
    exec i { s with flags := f } = .next { t with flags := f } := by
  rcases instr_family i with ⟨r, m, hr, hm⟩ | ⟨r, m, hr, hm⟩ | ⟨m, hc, -⟩ | ⟨g, hg, -⟩ |
    ⟨v, rfl⟩ | ⟨v, rfl⟩ | ⟨v, rfl⟩
  · rw [exec_load hr hm] at h ⊢
    exact perform_with_flags (resolve_with_flags ..) (fun o => by simp) h
  · rw [exec_store hr hm] at h ⊢
    exact perform_with_flags (effectiveAddress_with_flags ..) (fun ea => by simp [State.writeByte]) h
  · exact absurd hc hi
  · rw [exec_implied hg] at h ⊢
    exact perform_with_flags rfl (fun _ => impliedHandler_with_flags s f hg) h
  · rw [exec_jmpAbs] at h ⊢
    exact perform_with_flags (effectiveAddress_with_flags ..) (fun _ => rfl) h
  · rw [exec_jmpInd] at h ⊢
    exact perform_with_flags (effectiveAddress_with_flags ..) (fun _ => rfl) h
  · rw [exec_jsrAbs] at h ⊢
    exact perform_with_flags rfl (fun _ => rfl) h

/-- An instruction that raises carries any other flags through: R72 names no flag. -/
theorem exec_with_flags_of_raise {i : Instr} {s t : State} (hraise : raiseCondition i s)
    (h : exec i s = .next t) (f : Flags) :
    exec i { s with flags := f } = .next { t with flags := f } := by
  have hs := (exec_answersByR72 i s).1 hraise
  have hf := (exec_answersByR72 i { s with flags := f }).1 ((raiseCondition_with_flags s f i).mpr hraise)
  cases hs.symm.trans h
  exact hf

/-- A CMP outside the raise conditions has an operand value and a successor. -/
theorem cmp_resolves_of_not_raise {i : Instr} {s : State} (hc : i.mnemonic = .cmp)
    (hn : ¬ raiseCondition i s) :
    ∃ m o, i.mode = some m ∧ resolve m i.operand s = .ok o ∧ hasSuccessor (instrLength i) s := by
  obtain ⟨m, hm⟩ := exists_mode_of_cmp hc
  obtain ⟨⟨o, ho⟩, hs⟩ := (raisedBy_eq_none_of_mode hm s).mp (raisedBy_eq_none_iff.mpr hn)
  rw [hc, ← hm, successorOk_iff_hasSuccessor rfl] at hs
  exact ⟨m, o, hm, ho, hs⟩

/-- A CMP that completes sets the same C, Z and N whatever the flags before it, and leaves the others. -/
theorem exec_cmp_with_flags {i : Instr} {s t : State} (hc : i.mnemonic = .cmp) (hn : ¬ raiseCondition i s)
    (h : exec i s = .next t) (f : Flags) :
    exec i { s with flags := f } =
      .next { t with flags := { t.flags with v := f.v, b := f.b, d := f.d, i := f.i } } := by
  obtain ⟨m, o, hm, ho, hs⟩ := cmp_resolves_of_not_raise hc hn
  obtain ⟨-, hcmp⟩ := cmpSetsCarryZeroNegative
  have hexec := (hcmp i m s hc hm).1 o ho hs
  have hexec' := (hcmp i m { s with flags := f } hc hm).1 o ((resolve_with_flags ..).trans ho) hs
  cases hexec.symm.trans h
  rwa [operandValue_with_flags] at hexec'

/-- Settles O27: CMP alone writes a flag, no mode and no handler reads one, and a raise writes ST alone. -/
theorem flagsAreWrittenByCmpAndReadByNone : Obligations.FlagsAreWrittenByCmpAndReadByNone := by
  refine fun i s t h => ⟨exec_flags_of_ne_cmp h, exec_unwritten_flags h, fun hi f => ?_,
    fun hc hn => exec_cmp_with_flags hc hn h⟩
  rcases hi with hi | hraise
  · exact exec_with_flags_of_ne_cmp hi h f
  · exact exec_with_flags_of_raise hraise h f

end Sys2Proof.Machine
end

section
/-! Proofs about the loads and the stores (45_load_store.md): what each one answers, what a completed store leaves
unchanged, and that a load reads its index before it writes it. -/

namespace Sys2Proof.Machine

/-! #### The loads and the stores (R160 to R166) -/

/-- Every instruction has a mode R56 admits for its mnemonic. -/
theorem mode_mem_admissibleModes (i : Instr) : i.mode ∈ admissibleModes i.mnemonic := by
  obtain ⟨-, hadm, -⟩ := Laws.Rebuild.all i
  exact admissible_iff.mp hadm

/-- Settles O20, by the meaning of a load in every admissible mode (`everyAdmissiblePairHasItsMeaning`). -/
theorem loadsTakeTheOperandValue : Obligations.LoadsTakeTheOperandValue := by
  refine ⟨fun b v => ?_, fun i r m s hr hm => ?_⟩
  · have hbyte {i : Instr} {op : Byte} := encode_of_byte_operand (i := i) (op := op) (b := b)
    exact ⟨hbyte rfl, hbyte rfl, hbyte rfl, hbyte rfl, hbyte rfl, rfl, rfl, rfl,
      hbyte rfl, hbyte rfl, hbyte rfl, rfl, rfl,
      hbyte rfl, hbyte rfl, hbyte rfl, rfl, rfl⟩
  · obtain ⟨hmeaning, -, -⟩ := everyAdmissiblePairHasItsMeaning
    have hreg := loadedReg_of_mem hr
    rw [exec_load hreg hm, ← execDecoded_load hreg, instrLength, hm]
    exact hmeaning i.mnemonic r m i.operand s hr (hm ▸ mode_mem_admissibleModes i)

/-- Settles O21, by the meaning of a store in every admissible mode (`everyAdmissiblePairHasItsMeaning`). -/
theorem storesWriteTheRegister : Obligations.StoresWriteTheRegister := by
  refine ⟨fun b v => ?_, fun i r m s hr hm => ?_⟩
  · have hbyte {i : Instr} {op : Byte} := encode_of_byte_operand (i := i) (op := op) (b := b)
    exact ⟨hbyte rfl, hbyte rfl, hbyte rfl, hbyte rfl, rfl, rfl, rfl,
      hbyte rfl, hbyte rfl, rfl, hbyte rfl, hbyte rfl, rfl⟩
  · obtain ⟨-, hmeaning, -⟩ := everyAdmissiblePairHasItsMeaning
    have hreg := storedReg_of_mem hr
    rw [exec_store hreg hm, ← execDecoded_store hreg, instrLength, hm]
    exact hmeaning i.mnemonic r m i.operand s hr (hm ▸ mode_mem_admissibleModes i)

/-! #### The frame of a completed store (R163 to R165, R35) -/

/-- Settles O30: a store that leaves the engine running wrote one byte and settled PC. -/
theorem storeChangesOneByte : Obligations.StoreChangesOneByte := by
  intro i r m s t ea hr hm hea _ h ht
  rw [exec_store (storedReg_of_mem hr) hm, store, hea] at h
  obtain rfl := eq_settlePc_of_running h ht
  exact ⟨State.readByte_writeByte_same s ea (s.getReg r),
    fun a ha => State.readByte_writeByte_other s (s.getReg r) ha.symm, rfl⟩

/-! #### A load reads its index before it writes it (R167) -/

/-- A load whose mode resolves in the state before it, and whose successor exists, takes the operand value of
that state. -/
theorem load_completes {mn : Mnemonic} (hmn : needsSuccessor mn = true) (r : Reg) {m : Mode} {v : Word}
    {s : State} {o : Resolved} (ho : resolve m v s = .ok o) (hs : hasSuccessor (modeLength (some m)) s) :
    load mn r m v s = .next { s.setReg r (operandValue o s) with
      pc := s.pc + BitVec.ofNat 16 (modeLength (some m)) } := by
  rw [load, perform_completes ho ((successorOk_iff_hasSuccessor hmn _ s).mpr hs), settlePc_advance,
    State.setReg_pc]

/-- A mode whose address is a checked sum `n` that exists has the byte at `n` as its operand value. -/
theorem exists_resolve_of_inRange {m : MemMode} {v : Word} {s : State} {n : Nat}
    (hea : effectiveAddress m v s = inRange n) (hn : n ≤ 0xFFFF) :
    ∃ o, resolve (.mem m) v s = .ok o ∧ operandValue o s = s.mem.read n := by
  rcases inRange_cases hea.symm with ⟨-, a, ha, hval⟩ | ⟨hlt, -⟩
  · exact ⟨.address a, resolve_mem_ok ha, hval ▸ rfl⟩
  · omega

/-- Settles O22: the operand value is that of the state before, also where the index is the destination. -/
theorem loadUsesOldIndex : Obligations.LoadUsesOldIndex := by
  refine ⟨fun mn r m v s o hmn ho hs => ?_, fun v s hfit hs => ?_, fun v s hfit hs => ?_⟩
  · have hneeds : ∀ mn ∈ [Mnemonic.lda, .ldx, .ldy], needsSuccessor mn = true := by decide
    exact load_completes (hneeds mn hmn) r ho hs
  · obtain ⟨o, ho, hval⟩ := exists_resolve_of_inRange (effectiveAddress_absx v s) hfit
    exact hval ▸ load_completes rfl .x ho hs
  · obtain ⟨o, ho, hval⟩ := exists_resolve_of_inRange (effectiveAddress_absy v s) hfit
    exact hval ▸ load_completes rfl .y ho hs

end Sys2Proof.Machine
end

section
/-! Proofs about exceptions (60_exceptions.md): what raising one writes, and what is left of an engine it halted. -/

namespace Sys2Proof.Machine

/-- Taking an exception completes the step with ST alone written (R184). -/
theorem raise_eq_next (k : Exc) (s : State) : raise k s = .next { s with st := .halted k } := rfl

/-- A halted engine makes no memory access (R46, R184). -/
theorem transactions_halted {s : State} {k : Exc} (h : s.st = .halted k) : transactions s = [] := by
  simp [transactions, h]

/-- Settles O34: the rules of a halted state, with the reported code read off for each kind. -/
theorem exceptionHaltsTheEngine : Obligations.ExceptionHaltsTheEngine := by
  refine ⟨raise_eq_next, fun k s h => ⟨step_halted h, transactions_halted h, ?_, ?_⟩⟩
  · rw [h, Status.haltedOut]
  · rw [h]
    cases k with
    | invalidOpcode => rfl
    | addressOutOfRange => rfl

end Sys2Proof.Machine
end

section
/-! Proofs about reset and the parked engine (70_reset_and_hazards.md): what the reset event sets, what a store into
its vector changes, and that a jump to its own address answers the state it started from. -/

namespace Sys2Proof.Machine

/-! #### The parked engine (R217) -/

/-- JMP abs sets PC to its operand and nothing else (R130), so a jump to its own address changes nothing. -/
theorem exec_jmpAbs_self (s : State) : exec (.jmpAbs s.pc) s = .next s :=
  (exec_jmpAbs s.pc s).trans (jump_eq .abs s.pc s)

/-- Settles O42: the jump that stands at PC is taken, to where PC already is. -/
theorem parkedStateIsFixed : Obligations.ParkedStateIsFixed := by
  rintro s ⟨hrunning, hjump⟩
  exact (step_of_fetchDecode hrunning hjump).trans (exec_jmpAbs_self s)

/-! #### The reset event (R210, R211) -/

/-- Reset starts at the little-endian word at FFFC. -/
@[simp] theorem applyReset_pc (a x y : Byte) (s : State) :
    (applyReset a x y s).pc = joinBytes (s.readByte 0xFFFD) (s.readByte 0xFFFC) := rfl

/-- Two states differ after reset in the word they hold at FFFC and in their memory alone. -/
theorem applyReset_eq_with_mem (a x y : Byte) (s t : State) :
    applyReset a x y t =
      { applyReset a x y s with
        pc := joinBytes (t.readByte 0xFFFD) (t.readByte 0xFFFC), mem := t.mem } := rfl

/-- Settles O47: PC is the word at FFFC (`applyReset_pc`); the other fields are the model's constants. -/
theorem resetEventSetsTheState : Obligations.ResetEventSetsTheState := by
  intro a x y s
  have hpc : (applyReset a x y s).pc = joinBytes (s.mem.read 0xFFFD) (s.mem.read 0xFFFC) := applyReset_pc a x y s
  rw [← hpc]
  rfl

/-- Settles O48: after the store FFFC reads as the byte stored and FFFD as before. -/
theorem overwrittenVectorMovesTheNextStart : Obligations.OverwrittenVectorMovesTheNextStart := by
  intro a x y lo s
  have hlo : (s.writeByte 0xFFFC lo).readByte 0xFFFC = lo := State.readByte_writeByte_same s 0xFFFC lo
  have hhi : (s.writeByte 0xFFFC lo).readByte 0xFFFD = s.readByte 0xFFFD :=
    State.readByte_writeByte_other s lo (by decide)
  rw [applyReset_eq_with_mem a x y s, hlo, hhi]

end Sys2Proof.Machine
end
